-- ==== Sys2Proof/Word.lean ====
section
/-! DEFINITION. The machine's plain value types: 64-bit registers and 3-bit program entries (spec/00_scope.md R5, R6). -/

namespace Sys2Proof

/-- A register value: XLEN = 64 bits, unsigned (spec/00_scope.md R5; spec/10_state.md R11). -/
abbrev Word := BitVec 64

/-- One program entry, opcode, operand or emitted value: EW = 3 bits (spec/00_scope.md R5; spec/20_memory.md R30). -/
abbrev Entry := BitVec 3

/-- The contents of the program store: its entries from index 0 up; LEN is the list's length (spec/20_memory.md R30;
spec/93_implementation_defined.md U3: the program type is a list of 3-bit values). -/
abbrev Program := List Entry

end Sys2Proof
end

