-- ==== Sys2Proof/Config.lean ====
section
/-! DEFINITION. What the spec fixes for the implementation (spec/00_scope.md R5). The device leaves no value free: no opaque constant is needed. -/

namespace Sys2Proof.Config

/-- PLEN_MAX: the largest program length the store holds (spec/00_scope.md R5, decision D3). -/
def programLengthMax : Nat := 65534

/-- IPW: the width in bits of the instruction pointer (spec/00_scope.md R5, decision D3). The model holds the pointer as a
natural number; this width is what statements about its bound compare it with. -/
def pointerWidth : Nat := 16

end Sys2Proof.Config
end

