-- ==== Sys2Proof/Machine/State.lean ====
section
/-! DEFINITION. The machine's state as the spec gives it (spec/10_state.md R10), the reasons a step can stop, and the state after cold reset. -/

namespace Sys2Proof.Machine

/-- The four conditions of the STATUS register; all four encodings of its 2 bits are used (spec/10_state.md R19). The
encodings stand in `statusCode`. -/
inductive Status where
  /-- No run has been launched since reset. -/
  | idle
  /-- A run is in progress. -/
  | running
  /-- The run has ended normally: `pc >= LEN`. -/
  | halted
  /-- The run has been stopped by a fault. -/
  | faulted
deriving DecidableEq, Repr

/-- The contents of the CAUSE register (spec/10_state.md R20; spec/60_exceptions.md R91). The encodings stand in `causeCode`. -/
inductive Cause where
  /-- No fault. -/
  | none
  /-- A combo operand entry 7 was executed (spec/60_exceptions.md R92). -/
  | reservedOperand
  /-- The operand entry lies beyond the end of the program (spec/60_exceptions.md R93). -/
  | operandOverrun
  /-- The program length was not acceptable at launch (spec/60_exceptions.md R94). -/
  | badProgram
deriving DecidableEq, Repr

/-- The names of the three general registers (spec/10_state.md R11). -/
inductive Reg where
  | a
  | b
  | c
deriving DecidableEq, Repr

/-- The whole state (spec/10_state.md R10), with the program store and its length beside it: the spec makes those inputs of
the launch that no step changes (R21); they are held here because the step takes nothing but the state (log entry 2). -/
structure State where
  /-- Register A, `x[A]` (R11). -/
  a : Word
  /-- Register B, `x[B]` (R11). -/
  b : Word
  /-- Register C, `x[C]` (R11). -/
  c : Word
  /-- The instruction pointer (R14), a natural number as decision D3 allows (log entry 1). -/
  pc : Nat
  /-- OUT, the output sequence, oldest value first (R18). -/
  out : List Entry
  /-- STATUS (R19). -/
  status : Status
  /-- CAUSE (R20). -/
  cause : Cause
  /-- The program store; LEN is its length (spec/20_memory.md R30). -/
  program : Program
deriving DecidableEq, Repr

/-- The reasons the MODEL stops. The device's own faults (`Cause`) are no reason to stop: fault entry gives a next state. -/
inductive Fault where
  /-- Raised by `step` alone, in a state with STATUS = RUNNING and `pc >= LEN`: the step's precondition `pc < LEN`
  (spec/30_encoding.md R53) does not hold, an index at or past LEN names no entry (spec/20_memory.md R30), and no fetch is made
  there (R32). No run reaches such a state. Safe: the model stops where the spec gives no step (log entry 7). -/
  | fetchOutsideProgram
deriving DecidableEq, Repr

/-- The reasons the model refuses an instruction. -/
inductive Refusal where
  /-- Raised by an arm of `exec` whose instruction has no meaning yet; every instruction of this device has one, so nothing
  raises it. Safe. -/
  | notModelled (mnemonic : String)
deriving DecidableEq, Repr

/-- The machine right after cold reset (spec/10_state.md R25; spec/70_reset_and_hazards.md R110): STATUS = IDLE, CAUSE = NONE,
`pc` = 0, OUT empty. DESIGN CHOICE, unsafe: the spec leaves A, B, C (log entry 3) and the program store (log entry 4)
unspecified; the model names 0 and the empty store. -/
def State.reset : State :=
  { a := 0, b := 0, c := 0, pc := 0, out := [], status := .idle, cause := .none, program := [] }

end Sys2Proof.Machine
end

