-- ==== Sys2Proof/Machine/Alu.lean ====
section
/-! DEFINITION. The device's arithmetic on 64-bit words: the power-of-two floor division, the remainder modulo 8, the exclusive
or and the zero extension of an entry (spec/40_shift.md R60, R64 to R67). -/

namespace Sys2Proof.Machine

/-- `ShiftRight(a, n)` = floor(a / 2^n): a logical shift whose count is the whole 64-bit value; 64 or more gives 0
(spec/40_shift.md R60; spec/90_conflicts.md C1). -/
def shiftRight (a n : Word) : Word := if 64 ≤ n.toNat then 0 else a >>> n.toNat

/-- `v mod 8`, the low three bits `v[2:0]` (spec/40_shift.md R67). -/
def mod8 (v : Word) : Entry := v.extractLsb' 0 3

/-- `zext_64` of an entry (spec/00_scope.md R6; spec/30_encoding.md R48). -/
def zext (n : Entry) : Word := n.setWidth 64

/-- The exclusive or over all 64 bits (spec/40_shift.md R66). -/
def xorWord (x y : Word) : Word := x ^^^ y

end Sys2Proof.Machine
end

