-- ==== Sys2Proof/Syntax.lean ====
section
/-! DEFINITION. The instructions as syntax: one constructor per row of spec/opcode_table.json, in the table's order. -/

namespace Sys2Proof

/-- A combo operand by what its tag selects (spec/30_encoding.md R49). -/
inductive Combo where
  /-- Tags 0 to 3: the literal itself. -/
  | literal (n : BitVec 2)
  /-- Tag 4: the live value of register A. -/
  | regA
  /-- Tag 5: the live value of register B. -/
  | regB
  /-- Tag 6: the live value of register C. -/
  | regC
  /-- Tag 7: reserved; it has no value (spec/30_encoding.md R50). Kept as syntax so that executing it can raise the fault the
  spec describes; `Combo.wf` refuses it. -/
  | reserved
deriving DecidableEq, Repr

/-- The eight instructions of the opcode map (spec/30_encoding.md R51). -/
inductive Instr where
  /-- Opcode 0, `shift-A t` (spec/40_shift.md R61). -/
  | shiftA (t : Combo)
  /-- Opcode 1, `xor-literal n` (spec/41_bitwise_b.md R70). -/
  | xorLiteral (n : Entry)
  /-- Opcode 2, `mod-B t` (spec/41_bitwise_b.md R71). -/
  | modB (t : Combo)
  /-- Opcode 3, `jump-if-nonzero n` (spec/42_jump.md R80). -/
  | jumpIfNonzero (n : Entry)
  /-- Opcode 4, `xor-registers`; the operand entry is fetched and ignored (spec/41_bitwise_b.md R72). -/
  | xorRegisters (ignored : Entry)
  /-- Opcode 5, `emit t` (spec/43_emit.md R85). -/
  | emit (t : Combo)
  /-- Opcode 6, `shift-B t` (spec/40_shift.md R62). -/
  | shiftB (t : Combo)
  /-- Opcode 7, `shift-C t` (spec/40_shift.md R63). -/
  | shiftC (t : Combo)
deriving DecidableEq, Repr

end Sys2Proof
end

