-- ==== Sys2Proof/WellFormed.lean ====
section
/-! DEFINITION. Which instruction terms are legal: all but those whose combo operand is the reserved tag 7 (spec/30_encoding.md R50, R52). -/

namespace Sys2Proof

/-- A combo operand is legal when its tag is not 7 (spec/30_encoding.md R50). -/
def Combo.wf : Combo → Bool
  | .literal _ => true
  | .regA => true
  | .regB => true
  | .regC => true
  | .reserved => false

/-- The legal instructions (spec/30_encoding.md R52): a literal or ignored operand is always legal, 7 included. -/
def Instr.wf : Instr → Bool
  | .shiftA t => t.wf
  | .xorLiteral _ => true
  | .modB t => t.wf
  | .jumpIfNonzero _ => true
  | .xorRegisters _ => true
  | .emit t => t.wf
  | .shiftB t => t.wf
  | .shiftC t => t.wf

end Sys2Proof
end

