-- ==== Sys2Proof/Decode.lean ====
section
/-! DEFINITION. The decoder from program entries to instructions, the encoder back, the opcode map as the spec tables it, and the
6-bit notation word `iw` (spec/30_encoding.md R45 to R52). -/

namespace Sys2Proof

/-- Why a list of entries holds no instruction (spec/20_memory.md R32). -/
inductive DecodeError where
  /-- There is no opcode entry: the index is at or past the end of the program. -/
  | noOpcode
  /-- There is an opcode entry and no operand entry after it: the case of `OPERAND_OVERRUN`. -/
  | noOperand
deriving DecidableEq, Repr

/-- The combo operand a tag stands for (spec/30_encoding.md R49, R50). -/
def decodeCombo (t : Entry) : Combo :=
  match t.toFin with
  | 0 => .literal 0
  | 1 => .literal 1
  | 2 => .literal 2
  | 3 => .literal 3
  | 4 => .regA
  | 5 => .regB
  | 6 => .regC
  | 7 => .reserved

/-- The instruction an opcode entry and an operand entry form; all eight opcodes are assigned (spec/30_encoding.md R47, R51). -/
def decodePair (opcode operand : Entry) : Instr :=
  match opcode.toFin with
  | 0 => .shiftA (decodeCombo operand)
  | 1 => .xorLiteral operand
  | 2 => .modB (decodeCombo operand)
  | 3 => .jumpIfNonzero operand
  | 4 => .xorRegisters operand
  | 5 => .emit (decodeCombo operand)
  | 6 => .shiftB (decodeCombo operand)
  | 7 => .shiftC (decodeCombo operand)

/-- The instruction at the head of a list of entries and the entries after it, or the reason there is none
(spec/20_memory.md R31, R32; spec/30_encoding.md R45). -/
def decode : List Entry → Except DecodeError (Instr × List Entry)
  | [] => .error .noOpcode
  | [_] => .error .noOperand
  | opcode :: operand :: rest => .ok (decodePair opcode operand, rest)

/-- The instructions of a whole list of entries, read at even indices (spec/30_encoding.md R45; spec/00_scope.md R8). -/
def decodeAll : List Entry → Except DecodeError (List Instr)
  | [] => .ok []
  | [_] => .error .noOperand
  | opcode :: operand :: rest =>
    match decodeAll rest with
    | .ok is => .ok (decodePair opcode operand :: is)
    | .error e => .error e

/-- The tag of a combo operand (spec/30_encoding.md R49). -/
def encodeCombo : Combo → Entry
  | .literal n => n.setWidth 3
  | .regA => 4
  | .regB => 5
  | .regC => 6
  | .reserved => 7

/-- The opcode entry of an instruction (spec/30_encoding.md R51). -/
def opcodeEntry : Instr → Entry
  | .shiftA _ => 0
  | .xorLiteral _ => 1
  | .modB _ => 2
  | .jumpIfNonzero _ => 3
  | .xorRegisters _ => 4
  | .emit _ => 5
  | .shiftB _ => 6
  | .shiftC _ => 7

/-- The operand entry of an instruction (spec/30_encoding.md R47 to R49). -/
def operandEntry : Instr → Entry
  | .shiftA t => encodeCombo t
  | .xorLiteral n => n
  | .modB t => encodeCombo t
  | .jumpIfNonzero n => n
  | .xorRegisters n => n
  | .emit t => encodeCombo t
  | .shiftB t => encodeCombo t
  | .shiftC t => encodeCombo t

/-- The entries of an instruction, the opcode at the lower index (spec/20_memory.md R31; spec/30_encoding.md R45). -/
def encode (i : Instr) : List Entry := [opcodeEntry i, operandEntry i]

/-- The entries of a list of instructions laid out from index 0 (spec/20_memory.md R31). -/
def encodeAll : List Instr → List Entry
  | [] => []
  | i :: is => encode i ++ encodeAll is

/-- The notation word `iw` of a pair: the opcode in bits 5..3, the operand in bits 2..0 (spec/30_encoding.md R45, decision D5). -/
def pairWord (opcode operand : Entry) : BitVec 6 := opcode ++ operand

/-- The word `iw` of an instruction (spec/30_encoding.md R45). -/
def encodeWord (i : Instr) : BitVec 6 := pairWord (opcodeEntry i) (operandEntry i)

/-- The opcode entry `iw[5:3]` of a word (spec/30_encoding.md R45). -/
def wordOpcode (iw : BitVec 6) : Entry := iw.extractLsb' 3 3

/-- The operand entry `iw[2:0]` of a word (spec/30_encoding.md R45). -/
def wordOperand (iw : BitVec 6) : Entry := iw.extractLsb' 0 3

/-- The instruction of a word `iw` (spec/30_encoding.md R45, R51). -/
def decodeWord (iw : BitVec 6) : Instr := decodePair (wordOpcode iw) (wordOperand iw)

/-- The mnemonic of an instruction (spec/30_encoding.md R51; spec/opcode_table.json). -/
def mnemonic : Instr → String
  | .shiftA _ => "shift-A"
  | .xorLiteral _ => "xor-literal"
  | .modB _ => "mod-B"
  | .jumpIfNonzero _ => "jump-if-nonzero"
  | .xorRegisters _ => "xor-registers"
  | .emit _ => "emit"
  | .shiftB _ => "shift-B"
  | .shiftC _ => "shift-C"

/-- One row of the opcode map over the word `iw` (spec/30_encoding.md R45, R51). -/
structure OpcodeRow where
  /-- The row's mnemonic. -/
  mnemonic : String
  /-- The fixed bits' values. -/
  pattern : BitVec 6
  /-- The fixed bits. -/
  mask : BitVec 6
deriving DecidableEq, Repr

/-- The opcode map row for row: match = opcode * 8, mask = 0x38 (spec/30_encoding.md R45, R51). -/
def opcodeTable : List OpcodeRow :=
  [⟨"shift-A", 0x00, 0x38⟩, ⟨"xor-literal", 0x08, 0x38⟩, ⟨"mod-B", 0x10, 0x38⟩, ⟨"jump-if-nonzero", 0x18, 0x38⟩,
   ⟨"xor-registers", 0x20, 0x38⟩, ⟨"emit", 0x28, 0x38⟩, ⟨"shift-B", 0x30, 0x38⟩, ⟨"shift-C", 0x38, 0x38⟩]

/-- A row's fixed bits have the row's values in a word. -/
def rowMatches (r : OpcodeRow) (iw : BitVec 6) : Bool := (iw &&& r.mask) == r.pattern

/-- The two entries a table word stands for: the opcode (bits 5..3) at the lower index, the operand (bits 2..0) at the higher
(spec/30_encoding.md R45). -/
def tableEntries (w : Nat) : List Entry := [BitVec.ofNat 3 (w / 8), BitVec.ofNat 3 w]

/-- The instruction the decoder reads from a table word. A word of the table has 6 bits: a number that needs more is no
instruction (spec/30_encoding.md R45, R57; log entry 15). -/
def decodeTableWord (_nbits w : Nat) : Option Instr :=
  if w < 64 then
    match decode (tableEntries w) with
    | .ok (i, _) => some i
    | .error _ => none
  else none

end Sys2Proof
end

