-- ==== Sys2Proof/Machine/Program.lean ====
section
/-! DEFINITION. The named operations over the program store, the length check of the launch, and well-formed programs
(spec/20_memory.md R30, R32; spec/60_exceptions.md R94; spec/30_encoding.md R54). -/

namespace Sys2Proof.Machine

/-- `P[i]`, the entry at an index; none at or past LEN, which names no entry (spec/20_memory.md R30). -/
def readEntry (p : Program) (i : Nat) : Option Entry := p[i]?

/-- `MemRead(addr, n)`: the entries `P[addr] ... P[addr + n - 1]`, as many of them as the program has (spec/00_scope.md R7;
spec/20_memory.md R32). -/
def memRead (p : Program) (addr n : Nat) : List Entry := (p.drop addr).take n

/-- The store with two entries put at an index and the one after it; missing entries below are 0. No rule of the device uses
it: it stands for the host's load in `State.withFetchWord` (log entry 5). -/
def storePair (p : Program) (i : Nat) (pair : List Entry) : Program :=
  p.take i ++ List.replicate (i - p.length) 0 ++ pair ++ p.drop (i + 2)

/-- The store is in its one canonical form: exactly the indices below LEN have an entry. The store is held as the list of its
entries, so this holds of every store (log entry 10). -/
def Memory.wf (p : Program) : Bool :=
  (List.range p.length).all (fun i => (readEntry p i).isSome) && (readEntry p p.length).isNone

/-- The program lengths a launch accepts: positive, even and at most PLEN_MAX (spec/60_exceptions.md R94;
spec/70_reset_and_hazards.md R111). -/
def acceptableLength (len : Nat) : Bool :=
  decide (0 < len) && len % 2 == 0 && decide (len ≤ Config.programLengthMax)

/-- The laid-out instructions `(P[2k], P[2k + 1])` of a program, k from 0 (spec/20_memory.md R31). -/
def laidOut : Program → List (Entry × Entry)
  | opcode :: operand :: rest => (opcode, operand) :: laidOut rest
  | _ => []

/-- The opcodes whose operand is a combo operand: 0, 2, 5, 6, 7 (spec/30_encoding.md R47). -/
def takesCombo (opcode : Entry) : Bool :=
  opcode == 0 || opcode == 2 || opcode == 5 || opcode == 6 || opcode == 7

/-- A program is well-formed: conditions (a), (b) and (c) of spec/30_encoding.md R54. -/
def wellFormed (p : Program) : Bool :=
  decide (0 < p.length) && p.length % 2 == 0 && (laidOut p).all (fun e => !(takesCombo e.1 && e.2 == 7))

/-- No laid-out jump has an odd target: condition (d) of spec/30_encoding.md R54. -/
def jumpAligned (p : Program) : Bool :=
  (laidOut p).all (fun e => !(e.1 == 3 && e.2.toNat % 2 == 1))

/-- No laid-out instruction is a jump: the program is one straight line. -/
def straightLine (p : Program) : Bool := (laidOut p).all (fun e => !(e.1 == 3))

end Sys2Proof.Machine
end

