-- ==== Sys2Proof/Machine/Ops.lean ====
section
/-! DEFINITION. The named operations over registers, the instruction pointer and OUT; the instruction fetch; taking a fault; the halt
check. There is no operation that returns from a fault: the device has none (spec/60_exceptions.md R96). -/

namespace Sys2Proof.Machine

/-- Read of a general register (spec/00_scope.md R7). -/
def getReg (r : Reg) (s : State) : Word :=
  match r with
  | .a => s.a
  | .b => s.b
  | .c => s.c

/-- Write of a general register; no register is hardwired (spec/10_state.md R11). -/
def setReg (r : Reg) (v : Word) (s : State) : State :=
  match r with
  | .a => { s with a := v }
  | .b => { s with b := v }
  | .c => { s with c := v }

/-- The advance `pc <- pc + 2` of an instruction that completes (spec/10_state.md R15). -/
def advance (s : State) : State := { s with pc := s.pc + 2 }

/-- The taken jump `pc <- n`: an absolute entry index, no auto-advance, no alignment check (spec/42_jump.md R80, R83). -/
def jumpTo (n : Entry) (s : State) : State := { s with pc := n.toNat }

/-- `OUT <- OUT ++ [v]` (spec/00_scope.md R7; spec/43_emit.md R85). -/
def appendOut (v : Entry) (s : State) : State := { s with out := s.out ++ [v] }

/-- Fault entry, `raise`: STATUS and CAUSE are written and nothing else; the faulting instruction's index stays in `pc`
(spec/60_exceptions.md R95). -/
def raiseFault (c : Cause) (s : State) : State := { s with status := .faulted, cause := c }

/-- The fetch: `MemRead(pc, 2)` decoded, or the reason there is no instruction (spec/20_memory.md R32). -/
def fetch (s : State) : Except DecodeError (Instr × List Entry) := decode (memRead s.program s.pc 2)

/-- Line 4 of the step: a run whose `pc` is at or past LEN halts, which changes STATUS alone. A step that raised a fault has
left RUNNING, and the line is not performed (spec/30_encoding.md R53; spec/70_reset_and_hazards.md R114). -/
def haltCheck (s : State) : State :=
  match s.status with
  | .running => if s.program.length ≤ s.pc then { s with status := .halted } else s
  | .idle => s
  | .halted => s
  | .faulted => s

end Sys2Proof.Machine
end

