-- ==== Sys2Proof/Machine/Operands.lean ====
section
/-! DEFINITION. Operand resolution (spec/30_encoding.md R47 to R50). -/

namespace Sys2Proof.Machine

/-- `Combo(t)`: the value of a combo operand, from the registers as they are when the instruction begins; tag 7 has none
(spec/30_encoding.md R49, R50). -/
def resolveCombo (t : Combo) (s : State) : Option Word :=
  match t with
  | .literal n => some (n.setWidth 64)
  | .regA => some (getReg .a s)
  | .regB => some (getReg .b s)
  | .regC => some (getReg .c s)
  | .reserved => none

/-- What every instruction with a combo operand does: with a value for the operand it has its effect; with tag 7 it raises
`RESERVED_OPERAND` and has no other effect (spec/30_encoding.md R50; spec/60_exceptions.md R92). -/
def withCombo (t : Combo) (s : State) (effect : Word → State) : Host.Outcome State Fault Refusal :=
  match resolveCombo t s with
  | some v => .next (effect v)
  | none => .next (raiseFault .reservedOperand s)

end Sys2Proof.Machine
end

