-- ==== Sys2Proof/Machine/BitwiseB.lean ====
section
/-! DEFINITION. The instructions that write register B from bitwise operations: xor-literal, mod-B, xor-registers
(spec/41_bitwise_b.md). -/

namespace Sys2Proof.Machine

/-- `xor-literal n` (spec/41_bitwise_b.md R70). -/
def execXorLiteral (n : Entry) (s : State) : Host.Outcome State Fault Refusal :=
  .next (advance (setReg .b (xorWord (getReg .b s) (zext n)) s))

/-- `mod-B t` (spec/41_bitwise_b.md R71). -/
def execModB (t : Combo) (s : State) : Host.Outcome State Fault Refusal :=
  withCombo t s (fun v => advance (setReg .b (zext (mod8 v)) s))

/-- `xor-registers`: the operand entry is not examined (spec/41_bitwise_b.md R72). -/
def execXorRegisters (_ignored : Entry) (s : State) : Host.Outcome State Fault Refusal :=
  .next (advance (setReg .b (xorWord (getReg .b s) (getReg .c s)) s))

end Sys2Proof.Machine
end

