-- ==== Sys2Proof/Machine/Emit.lean ====
section
/-! DEFINITION. The one instruction that produces output: emit (spec/43_emit.md). -/

namespace Sys2Proof.Machine

/-- `emit t` (spec/43_emit.md R85). -/
def execEmit (t : Combo) (s : State) : Host.Outcome State Fault Refusal :=
  withCombo t s (fun v => advance (appendOut (mod8 v) s))

end Sys2Proof.Machine
end

