-- ==== Sys2Proof/Machine/Flags.lean ====
section
/-! DEFINITION. The device has no flags (spec/10_state.md R22). Here stand the one condition it tests and the encodings of its
STATUS and CAUSE registers as the host reads them (R19, R20; spec/60_exceptions.md R91). -/

namespace Sys2Proof.Machine

/-- The condition of opcode 3: the full 64-bit value of A is not zero (spec/10_state.md R22; spec/42_jump.md R80). -/
def aNonzero (s : State) : Bool := s.a != 0

/-- `STATUS[1:0]` (spec/10_state.md R19). -/
def statusCode : Status → BitVec 2
  | .idle => 0b00
  | .running => 0b01
  | .halted => 0b10
  | .faulted => 0b11

/-- `CAUSE[1:0]` (spec/60_exceptions.md R91). -/
def causeCode : Cause → BitVec 2
  | .none => 0b00
  | .reservedOperand => 0b01
  | .operandOverrun => 0b10
  | .badProgram => 0b11

/-- What the host reads in STATUS. -/
def readStatus (s : State) : BitVec 2 := statusCode s.status

/-- What the host reads in CAUSE: the cause of the latest fault while FAULTED, `0b00` in every other status
(spec/10_state.md R20; log entry 11). -/
def readCause (s : State) : BitVec 2 :=
  match s.status with
  | .faulted => causeCode s.cause
  | .idle => 0b00
  | .running => 0b00
  | .halted => 0b00

end Sys2Proof.Machine
end

