-- ==== Sys2Proof/Machine/Jump.lean ====
section
/-! DEFINITION. The one control transfer: jump-if-nonzero (spec/42_jump.md). -/

namespace Sys2Proof.Machine

/-- `jump-if-nonzero n` (spec/42_jump.md R80). -/
def execJumpIfNonzero (n : Entry) (s : State) : Host.Outcome State Fault Refusal :=
  .next (if aNonzero s then jumpTo n s else advance s)

end Sys2Proof.Machine
end

