-- ==== Sys2Proof/Machine/Shift.lean ====
section
/-! DEFINITION. The power-of-two divisions of register A: shift-A, shift-B, shift-C (spec/40_shift.md). -/

namespace Sys2Proof.Machine

/-- The family's shared effect: the quotient of A goes to a register (spec/40_shift.md section 1). -/
def shiftInto (r : Reg) (t : Combo) (s : State) : Host.Outcome State Fault Refusal :=
  withCombo t s (fun n => advance (setReg r (shiftRight (getReg .a s) n) s))

/-- `shift-A t` (spec/40_shift.md R61). -/
def execShiftA (t : Combo) (s : State) : Host.Outcome State Fault Refusal := shiftInto .a t s

/-- `shift-B t` (spec/40_shift.md R62). -/
def execShiftB (t : Combo) (s : State) : Host.Outcome State Fault Refusal := shiftInto .b t s

/-- `shift-C t` (spec/40_shift.md R63). -/
def execShiftC (t : Combo) (s : State) : Host.Outcome State Fault Refusal := shiftInto .c t s

end Sys2Proof.Machine
end

