-- ==== Sys2Proof/Machine/Dispatch.lean ====
section
/-! DEFINITION. Which meaning each instruction has: one arm per constructor (spec/30_encoding.md R51, R53 line 3). -/

namespace Sys2Proof.Machine

def exec (i : Instr) (s : State) : Host.Outcome State Fault Refusal :=
  match i with
  | .shiftA t => Sys2Proof.Machine.execShiftA t s
  | .xorLiteral n => Sys2Proof.Machine.execXorLiteral n s
  | .modB t => Sys2Proof.Machine.execModB t s
  | .jumpIfNonzero n => Sys2Proof.Machine.execJumpIfNonzero n s
  | .xorRegisters ignored => Sys2Proof.Machine.execXorRegisters ignored s
  | .emit t => Sys2Proof.Machine.execEmit t s
  | .shiftB t => Sys2Proof.Machine.execShiftB t s
  | .shiftC t => Sys2Proof.Machine.execShiftC t s

end Sys2Proof.Machine
end

