-- ==== Sys2Proof/Machine/Step.lean ====
section
/-! DEFINITION. The step (spec/30_encoding.md R53), and the state in which the next step runs a given instruction. -/

namespace Sys2Proof.Machine

/-- The step: in RUNNING, fetch (an operand entry beyond the end raises `OPERAND_OVERRUN`), execute, halt check; in any other
status the executor does nothing (spec/30_encoding.md R53; spec/20_memory.md R32; spec/60_exceptions.md R93, R97). -/
def step (s : State) : Host.Outcome State Fault Refusal :=
  match s.status with
  | .running =>
    match fetch s with
    | .ok (i, _) =>
      match exec i s with
      | .next t => .next (haltCheck t)
      | .fault f => .fault f
      | .refused r => .refused r
    | .error .noOperand => .next (raiseFault .operandOverrun s)
    | .error .noOpcode => .fault .fetchOutsideProgram
  | .idle => .next s
  | .halted => .next s
  | .faulted => .next s

/-- The state in which a table word stands at `pc` in the program store and a run is in progress, so that the next step runs
it. It stands for the host's launch of a program (log entry 5); the registers, `pc` and OUT are left alone. -/
def State.withFetchWord (s : State) (_nbits w : Nat) : State :=
  { s with program := storePair s.program s.pc (tableEntries w), status := .running, cause := .none }

end Sys2Proof.Machine
end

