-- ==== Sys2Proof/Machine/Assembly.lean ====
section
/-! DEFINITION. The assembly form of programs (spec/30_encoding.md R55, R56): notation only, the device never sees it. -/

namespace Sys2Proof.Machine

/-- The mnemonics (spec/30_encoding.md R51, R55). -/
inductive Mnemonic where
  | shiftA
  | xorLiteral
  | modB
  | jumpIfNonzero
  | xorRegisters
  | emit
  | shiftB
  | shiftC
deriving DecidableEq, Repr

/-- How an operand is written: a digit 0 to 7 or a register letter (spec/30_encoding.md R55). -/
inductive AsmOperand where
  | digit (n : Entry)
  | letterA
  | letterB
  | letterC
deriving DecidableEq, Repr

/-- One line of assembly: `mnemonic operand`, the operand left out or not (spec/30_encoding.md R55). -/
structure AsmLine where
  mnemonic : Mnemonic
  operand : Option AsmOperand
deriving DecidableEq, Repr

/-- The combo operand a written operand stands for: `0` to `3`, `A`, `B`, `C`; tag 7 has no spelling (spec/30_encoding.md R55). -/
def assembleCombo : AsmOperand → Option Combo
  | .digit n => if n.toNat < 4 then some (.literal (n.setWidth 2)) else none
  | .letterA => some .regA
  | .letterB => some .regB
  | .letterC => some .regC

/-- The literal operand a written operand stands for: a digit (spec/30_encoding.md R55). -/
def assembleLiteral : AsmOperand → Option Entry
  | .digit n => some n
  | .letterA => none
  | .letterB => none
  | .letterC => none

/-- The instruction a line stands for; only the operand of `xor-registers` may be omitted, and then it is 0 (spec/30_encoding.md R55). -/
def assemble (l : AsmLine) : Option Instr :=
  match l.mnemonic, l.operand with
  | .shiftA, some o => (assembleCombo o).map .shiftA
  | .xorLiteral, some o => (assembleLiteral o).map .xorLiteral
  | .modB, some o => (assembleCombo o).map .modB
  | .jumpIfNonzero, some o => (assembleLiteral o).map .jumpIfNonzero
  | .xorRegisters, some o => (assembleLiteral o).map .xorRegisters
  | .xorRegisters, none => some (.xorRegisters 0)
  | .emit, some o => (assembleCombo o).map .emit
  | .shiftB, some o => (assembleCombo o).map .shiftB
  | .shiftC, some o => (assembleCombo o).map .shiftC
  | .shiftA, none => none
  | .xorLiteral, none => none
  | .modB, none => none
  | .jumpIfNonzero, none => none
  | .emit, none => none
  | .shiftB, none => none
  | .shiftC, none => none

/-- How a combo operand is written; tag 7 has no spelling (spec/30_encoding.md R55). -/
def writeCombo : Combo → Option AsmOperand
  | .literal n => some (.digit (n.setWidth 3))
  | .regA => some .letterA
  | .regB => some .letterB
  | .regC => some .letterC
  | .reserved => none

/-- The line of an instruction, its operand written out; none where the operand is the reserved tag (spec/30_encoding.md R55). -/
def disassemble : Instr → Option AsmLine
  | .shiftA t => (writeCombo t).map (fun o => ⟨.shiftA, some o⟩)
  | .xorLiteral n => some ⟨.xorLiteral, some (.digit n)⟩
  | .modB t => (writeCombo t).map (fun o => ⟨.modB, some o⟩)
  | .jumpIfNonzero n => some ⟨.jumpIfNonzero, some (.digit n)⟩
  | .xorRegisters n => some ⟨.xorRegisters, some (.digit n)⟩
  | .emit t => (writeCombo t).map (fun o => ⟨.emit, some o⟩)
  | .shiftB t => (writeCombo t).map (fun o => ⟨.shiftB, some o⟩)
  | .shiftC t => (writeCombo t).map (fun o => ⟨.shiftC, some o⟩)

/-- The digit of an entry. -/
def entryText (n : Entry) : String := toString n.toNat

/-- An operand as text. -/
def operandText : AsmOperand → String
  | .digit n => entryText n
  | .letterA => "A"
  | .letterB => "B"
  | .letterC => "C"

/-- A mnemonic as text (spec/30_encoding.md R51). -/
def mnemonicText : Mnemonic → String
  | .shiftA => "shift-A"
  | .xorLiteral => "xor-literal"
  | .modB => "mod-B"
  | .jumpIfNonzero => "jump-if-nonzero"
  | .xorRegisters => "xor-registers"
  | .emit => "emit"
  | .shiftB => "shift-B"
  | .shiftC => "shift-C"

/-- A line as text (spec/30_encoding.md R55). -/
def lineText (l : AsmLine) : String :=
  match l.operand with
  | some o => mnemonicText l.mnemonic ++ " " ++ operandText o
  | none => mnemonicText l.mnemonic

/-- The machine form of a program: its entries as digits, comma-separated, in brackets (spec/30_encoding.md R55). -/
def machineForm (p : Program) : String := "[" ++ String.intercalate "," (p.map entryText) ++ "]"

end Sys2Proof.Machine
end

