-- ==== Sys2Proof/Machine/Launch.lean ====
section
/-! DEFINITION. The host's moves: cold reset, launch, and what the host may read (spec/70_reset_and_hazards.md R110 to R113, R118). -/

namespace Sys2Proof.Machine

/-- What cold reset leaves unspecified: the registers and the program store with its length (spec/70_reset_and_hazards.md R110).
Any values: a claim about a cold reset holds for all of them (spec/93_implementation_defined.md U8). -/
structure Unspecified where
  a : Word
  b : Word
  c : Word
  program : Program
deriving DecidableEq, Repr

/-- Cold reset, at any time; a run in progress is discarded, and the unspecified contents are whatever `u` says
(spec/70_reset_and_hazards.md R110; log entry 13). -/
def coldReset (u : Unspecified) (_s : State) : State :=
  { a := u.a, b := u.b, c := u.c, pc := 0, out := [], status := .idle, cause := .none, program := u.program }

/-- The state a launch makes; it takes nothing from the state before (spec/70_reset_and_hazards.md R111; spec/60_exceptions.md R94). -/
def launchState (a0 b0 c0 : Word) (p : Program) : State :=
  { a := a0, b := b0, c := c0, pc := 0, out := [], program := p,
    status := if acceptableLength p.length then .running else .faulted,
    cause := if acceptableLength p.length then .none else .badProgram }

/-- Launch: accepted in IDLE, HALTED and FAULTED, not possible in RUNNING (spec/70_reset_and_hazards.md R111, R118). -/
def launch (a0 b0 c0 : Word) (p : Program) (s : State) : Option State :=
  match s.status with
  | .idle => some (launchState a0 b0 c0 p)
  | .halted => some (launchState a0 b0 c0 p)
  | .faulted => some (launchState a0 b0 c0 p)
  | .running => none

/-- What the host reads of a run that has stopped. -/
structure Readback where
  a : Word
  b : Word
  c : Word
  pc : Nat
  out : List Entry
deriving DecidableEq, Repr

/-- The host reads OUT, the registers and `pc` only in HALTED or FAULTED (spec/70_reset_and_hazards.md R118). -/
def readback (s : State) : Option Readback :=
  match s.status with
  | .halted => some { a := s.a, b := s.b, c := s.c, pc := s.pc, out := s.out }
  | .faulted => some { a := s.a, b := s.b, c := s.c, pc := s.pc, out := s.out }
  | .idle => none
  | .running => none

/-- The host's full check of a program before launch: a length the device accepts, and conditions (c) and (d) of
spec/30_encoding.md R54 (spec/70_reset_and_hazards.md R112 (c); spec/60_exceptions.md R100). -/
def hostValidates (p : Program) : Bool := acceptableLength p.length && wellFormed p && jumpAligned p

end Sys2Proof.Machine
end

