-- ==== Sys2Proof/Machine/Runner.lean ====
section
/-! DEFINITION. Runs: a number of steps, and the forward run `Simulate` of the host (spec/70_reset_and_hazards.md R113; spec/60_exceptions.md R103). -/

namespace Sys2Proof.Machine

/-- `k` steps. The executor does nothing outside RUNNING, so a run that has stopped keeps its final state. -/
def run : Nat → State → Host.Outcome State Fault Refusal
  | 0, s => .next s
  | k + 1, s =>
    match step s with
    | .next t => run k t
    | .fault f => .fault f
    | .refused r => .refused r

/-- What the host gets from `Simulate` (spec/70_reset_and_hazards.md R113; spec/60_exceptions.md R103). -/
inductive SimResult where
  /-- The run halted: the full output sequence, nothing else. -/
  | output (out : List Entry)
  /-- The run was stopped by a fault: a failure naming CAUSE. -/
  | failure (cause : Cause)
  /-- The run was still RUNNING when the host's step budget was used up: a failure the host reports; no cause is set. -/
  | overBudget
deriving DecidableEq, Repr

/-- `Simulate(A0, B0, C0, P)` under a step budget: launch, then at most `budget` steps. None where no launch is possible
(spec/70_reset_and_hazards.md R113, R118; spec/60_exceptions.md R103; log entry 14). -/
def simulate (budget : Nat) (a0 b0 c0 : Word) (p : Program) (s : State) : Option SimResult :=
  match launch a0 b0 c0 p s with
  | none => none
  | some t =>
    match run budget t with
    | .next u =>
      match u.status with
      | .halted => some (.output u.out)
      | .faulted => some (.failure u.cause)
      | .running => some .overBudget
      | .idle => none
    | .fault _ => none
    | .refused _ => none

end Sys2Proof.Machine
end

