-- ==== Sys2Proof/Safety.lean ====
section
/-! DEFINITION. What claims are stated in: the invariant of the machine, runs that end well, what a step emits, and which registers
an instruction reads and writes. -/

namespace Sys2Proof.Machine

/-- STATUS and CAUSE agree: a cause is recorded exactly in FAULTED (spec/10_state.md R19, R20). -/
abbrev CauseAgrees (s : State) : Prop := s.status = .faulted ↔ s.cause ≠ .none

/-- The invariant of RUNNING, `pc < LEN`, with an acceptable LEN (spec/30_encoding.md R53; spec/70_reset_and_hazards.md R111). -/
abbrev RunningInside (s : State) : Prop :=
  s.status = .running → s.pc < s.program.length ∧ acceptableLength s.program.length = true

/-- A halted run stands at or past the end of an acceptable program (spec/10_state.md R19). -/
abbrev HaltedPastEnd (s : State) : Prop :=
  s.status = .halted → s.program.length ≤ s.pc ∧ acceptableLength s.program.length = true

/-- Before any launch `pc` is 0 and OUT is empty (spec/10_state.md R25). -/
abbrev IdleIsFresh (s : State) : Prop := s.status = .idle → s.pc = 0 ∧ s.out = []

/-- An overrun names an odd last index of an acceptable program (spec/60_exceptions.md R93). -/
abbrev OverrunAtOddEnd (s : State) : Prop :=
  s.cause = .operandOverrun →
    s.pc + 1 = s.program.length ∧ s.pc % 2 = 1 ∧ acceptableLength s.program.length = true

/-- A reserved-operand fault names a pair of a combo opcode and the entry 7 (spec/60_exceptions.md R92). -/
abbrev ReservedAtPair (s : State) : Prop :=
  s.cause = .reservedOperand →
    (readEntry s.program s.pc).any takesCombo = true ∧ readEntry s.program (s.pc + 1) = some 7 ∧
      acceptableLength s.program.length = true

/-- A refused launch took no step (spec/60_exceptions.md R94). -/
abbrev BadProgramAtStart (s : State) : Prop :=
  s.cause = .badProgram → acceptableLength s.program.length = false ∧ s.pc = 0 ∧ s.out = []

/-- The bound of the instruction pointer (spec/10_state.md R16). -/
abbrev PointerBounded (s : State) : Prop := s.pc ≤ max s.program.length 7

/-- The invariant of the machine: it holds after cold reset and after every launch, and every step keeps it. -/
abbrev MachineInvariant (s : State) : Prop :=
  CauseAgrees s ∧ RunningInside s ∧ HaltedPastEnd s ∧ IdleIsFresh s ∧ OverrunAtOddEnd s ∧ ReservedAtPair s ∧
    BadProgramAtStart s ∧ PointerBounded s

/-- The states of a run that cannot fault: a well-formed, jump-aligned program of acceptable length at an even `pc`, or its halt
(spec/30_encoding.md R54; spec/60_exceptions.md R100). -/
abbrev AlignedRun (s : State) : Prop :=
  hostValidates s.program = true ∧ s.cause = .none ∧
    (s.status = .halted ∨ (s.status = .running ∧ s.pc % 2 = 0 ∧ s.pc < s.program.length))

/-- A safe run: whatever the number of steps, it answers a next state, and none of them is a fault (spec/60_exceptions.md R96, R100). -/
def NeverFaults (s : State) : Prop :=
  ∀ n, ∃ t, run n s = .next t ∧ t.status ≠ .faulted ∧ t.cause = .none

/-- A run that ends normally within a number of steps (spec/70_reset_and_hazards.md R114). -/
def HaltsWithin (n : Nat) (s : State) : Prop := ∃ k t, k ≤ n ∧ run k s = .next t ∧ t.status = .halted

/-- The next step at `s` executes the instruction `i`: a run is in progress and the pair at `pc` is `i`'s (spec/30_encoding.md R53). -/
abbrev Executes (s : State) (i : Instr) : Prop := s.status = .running ∧ fetch s = .ok (i, [])

/-- At the last entry of the program the fetch of an instruction with this opcode faults, before the opcode is looked at
(spec/20_memory.md R32; spec/60_exceptions.md R93). -/
def OverrunsAtLastEntry (opcode : Entry) : Prop :=
  ∀ s : State, s.status = .running → s.pc + 1 = s.program.length → readEntry s.program s.pc = some opcode →
    step s = .next { s with status := .faulted, cause := .operandOverrun }

/-- The value an instruction appends to OUT: an `emit` with a legal operand, the operand modulo 8 (spec/43_emit.md R85). -/
def emittedBy (i : Instr) (s : State) : Option Entry :=
  match i with
  | .emit t => (resolveCombo t s).map mod8
  | .shiftA _ => none
  | .xorLiteral _ => none
  | .modB _ => none
  | .jumpIfNonzero _ => none
  | .xorRegisters _ => none
  | .shiftB _ => none
  | .shiftC _ => none

/-- The value the next step appends to OUT, if a run is in progress and it executes such an `emit` (spec/43_emit.md R86). -/
def emitted (s : State) : Option Entry :=
  match s.status with
  | .running =>
    match fetch s with
    | .ok (i, _) => emittedBy i s
    | .error _ => none
  | .idle => none
  | .halted => none
  | .faulted => none

/-- The values appended by the `emit` instructions of the next `n` steps, in execution order (spec/43_emit.md R86). -/
def emissions : Nat → State → List Entry
  | 0, _ => []
  | n + 1, s =>
    match step s with
    | .next t => (emitted s).toList ++ emissions n t
    | .fault _ => []
    | .refused _ => []

/-- A combo operand consults a register (spec/30_encoding.md R49). -/
def comboReads (t : Combo) (r : Reg) : Bool :=
  match t, r with
  | .regA, .a => true
  | .regB, .b => true
  | .regC, .c => true
  | _, _ => false

/-- Which registers an instruction reads: the table of spec/10_state.md R12. -/
def readsReg (i : Instr) (r : Reg) : Bool :=
  match i with
  | .shiftA t => r == .a || comboReads t r
  | .xorLiteral _ => r == .b
  | .modB t => comboReads t r
  | .jumpIfNonzero _ => r == .a
  | .xorRegisters _ => r == .b || r == .c
  | .emit t => comboReads t r
  | .shiftB t => r == .a || comboReads t r
  | .shiftC t => r == .a || comboReads t r

/-- Which register an instruction writes, if any: the table of spec/10_state.md R12. -/
def writesReg (i : Instr) (r : Reg) : Bool :=
  match i with
  | .shiftA _ => r == .a
  | .xorLiteral _ => r == .b
  | .modB _ => r == .b
  | .jumpIfNonzero _ => false
  | .xorRegisters _ => r == .b
  | .emit _ => false
  | .shiftB _ => r == .b
  | .shiftC _ => r == .c

end Sys2Proof.Machine
end

