-- ==== Sys2Proof/Certificates/Slice0/Obligations.lean ====
section
/-! DEFINITION. The statements for the provers, each the content of a numbered rule of spec/ or derived from its sections. -/

open Sys2Proof
open Sys2Proof.Machine

/-! ## Arithmetic -/

/-- spec/40_shift.md R60: the shift is the floor of the unsigned quotient by a power of two, for every 64-bit count; it is
logical, a count of 64 or more gives 0, and a count of 0 is the identity. -/
def Obligations.ShiftRightIsFloorDivision : Prop :=
  ∀ a n : Word,
    (shiftRight a n).toNat = a.toNat / 2 ^ n.toNat ∧ shiftRight a n ≤ a ∧
    (64 ≤ n.toNat → shiftRight a n = 0) ∧ shiftRight a 0 = a ∧
    (∀ i, (shiftRight a n).getLsbD i = a.getLsbD (n.toNat + i))

/-- spec/40_shift.md R66 and R67: the exclusive or is taken bit by bit over all 64 bits, a zero-extended literal changes bits 2 to
0 alone, and the remainder modulo 8 is the low three bits. -/
def Obligations.XorAndModAreTakenBitByBit : Prop :=
  (∀ (x y : Word) (i : Nat), (xorWord x y).getLsbD i = (x.getLsbD i ^^ y.getLsbD i)) ∧
  (∀ (x : Word) (n : Entry) (i : Nat), 3 ≤ i → (xorWord x (zext n)).getLsbD i = x.getLsbD i) ∧
  (∀ v : Word, (mod8 v).toNat = v.toNat % 8 ∧ (zext (mod8 v)).toNat = v.toNat % 8 ∧
    ∀ i, i < 3 → (mod8 v).getLsbD i = v.getLsbD i) ∧
  (∀ (n : BitVec 2) (s : State), (resolveCombo (.literal n) s).map (fun v => (mod8 v).toNat) = some n.toNat) ∧
  xorWord 29 7 = 26 ∧ xorWord 2024 43690 = 44354 ∧ mod8 9 = 1 ∧ mod8 10 = 2

/-! ## Encoding -/

/-- Decoding what the encoder lays out gives the instructions back, for every list of instructions and with any entries after a
single one; and every program of even length is the layout of exactly one list of instructions. -/
def Obligations.DecodeAndEncodeAgree : Prop :=
  (∀ (i : Instr) (rest : List Entry), decode (encode i ++ rest) = .ok (i, rest)) ∧
  (∀ is : List Instr, decodeAll (encodeAll is) = .ok is ∧ (encodeAll is).length = 2 * is.length) ∧
  (∀ p : Program, p.length % 2 = 0 → ∃ is, decodeAll p = .ok is ∧ encodeAll is = p ∧
    ∀ js, encodeAll js = p → js = is)

/-- spec/30_encoding.md R45, R51 and the count of R52 (which the spec marks as derived): the 6-bit word and the instruction
determine each other, exactly one row of the opcode map matches a word and it is the decoded instruction's, and 59 words are legal. -/
def Obligations.EveryWordMatchesOneOpcodeRow : Prop :=
  (∀ i : Instr, decodeWord (encodeWord i) = i) ∧
  (∀ w : BitVec 6, encodeWord (decodeWord w) = w) ∧
  (∀ w : BitVec 6, (opcodeTable.filter (fun r => rowMatches r w)).map OpcodeRow.mnemonic = [mnemonic (decodeWord w)]) ∧
  ((List.range 64).filter (fun w => (decodeWord (BitVec.ofNat 6 w)).wf)).length = 59 ∧
  ((List.range 64).filter (fun w => !(decodeWord (BitVec.ofNat 6 w)).wf)) = [7, 23, 47, 55, 63]

/-- Words of the spec's programs P1, P3 and P6 (spec/95_test_vectors.md) and one word of each family not met there decode to the
instructions the spec writes beside them. -/
def Obligations.WrittenOutWordsDecode : Prop :=
  decode [0b000, 0b001] = .ok (.shiftA (.literal 1), []) ∧
  decode [0b101, 0b100] = .ok (.emit .regA, []) ∧
  decode [0b011, 0b000] = .ok (.jumpIfNonzero 0, []) ∧
  decode [0b010, 0b100] = .ok (.modB .regA, []) ∧
  decode [0b001, 0b011] = .ok (.xorLiteral 3, []) ∧
  decode [0b111, 0b101] = .ok (.shiftC .regB, []) ∧
  decode [0b100, 0b001] = .ok (.xorRegisters 1, []) ∧
  decode [0b110, 0b110] = .ok (.shiftB .regC, []) ∧
  decode [0b000, 0b111] = .ok (.shiftA .reserved, [])

/-- The assembly form of spec/30_encoding.md section 7: a legal instruction is written and read back, the reserved tag has no
spelling and no line reads as an instruction with it, and the operand of xor-registers may be omitted. -/
def Obligations.AssemblyReadsBack : Prop :=
  (∀ i : Instr, i.wf = true → ∃ l, disassemble i = some l ∧ assemble l = some i ∧ mnemonicText l.mnemonic = mnemonic i) ∧
  (∀ i : Instr, disassemble i = none ↔ i.wf = false) ∧
  (∀ (l : AsmLine) (i : Instr), assemble l = some i → i.wf = true) ∧
  assemble ⟨.xorRegisters, none⟩ = some (.xorRegisters 0) ∧
  (∀ m : Mnemonic, m ≠ .xorRegisters → assemble ⟨m, none⟩ = none)

/-! ## Operands and fetch -/

/-- spec/30_encoding.md R49: what each combo tag resolves to, from the registers as they are; tag 7 has no value and raises
RESERVED_OPERAND with no other effect. -/
def Obligations.ComboTagsResolveAsListed : Prop :=
  ∀ s : State,
    (∀ t : Entry, t.toNat ≤ 3 → resolveCombo (decodeCombo t) s = some (BitVec.ofNat 64 t.toNat)) ∧
    resolveCombo (decodeCombo 4) s = some s.a ∧
    resolveCombo (decodeCombo 5) s = some s.b ∧
    resolveCombo (decodeCombo 6) s = some s.c ∧
    resolveCombo (decodeCombo 7) s = none ∧
    (∀ effect : Word → State,
      withCombo (decodeCombo 7) s effect = .next { s with status := .faulted, cause := .reservedOperand })

/-- spec/20_memory.md R32: the fetch reads the pair at `pc`, even or odd; with no operand entry the step raises
OPERAND_OVERRUN; at or past the end nothing is read, since a step that arrives there has halted the run; for an even length and an even `pc` the overrun cannot happen;
and no instruction reads the program store but by this fetch. -/
def Obligations.FetchReadsThePairAtPc : Prop :=
  (∀ (s : State) (h : s.pc + 1 < s.program.length),
    memRead s.program s.pc 2 = [s.program[s.pc]'(Nat.lt_of_succ_lt h), s.program[s.pc + 1]] ∧
    fetch s = .ok (decodePair (s.program[s.pc]'(Nat.lt_of_succ_lt h)) s.program[s.pc + 1], [])) ∧
  (∀ s : State, s.status = .running → s.pc + 1 = s.program.length →
    step s = .next { s with status := .faulted, cause := .operandOverrun }) ∧
  (∀ s : State, s.program.length ≤ s.pc → memRead s.program s.pc 2 = []) ∧
  (∀ s t : State, s.status = .running → step s = .next t → t.program.length ≤ t.pc →
    t.status = .halted ∧ step t = .next t) ∧
  (∀ s : State, s.program.length % 2 = 0 → s.pc % 2 = 0 → s.pc < s.program.length → s.pc + 1 < s.program.length) ∧
  (∀ (i : Instr) (q : Program) (s t : State), exec i s = .next t →
    exec i { s with program := q } = .next { t with program := q })

/-! ## The instructions -/

/-- spec/40_shift.md R61, whole: encoding, effect and frame, faults, and the corner cases the rule derives from R60 and R49. -/
def Obligations.ShiftADividesA : Prop :=
  (∀ t : Combo, encode (.shiftA t) = [0, encodeCombo t] ∧ decode [0, encodeCombo t] = .ok (.shiftA t, [])) ∧
  (∀ (t : Combo) (s : State) (n : Word), resolveCombo t s = some n →
    ∃ q : Word, q.toNat = s.a.toNat / 2 ^ n.toNat ∧ exec (.shiftA t) s = .next { s with a := q, pc := s.pc + 2 } ∧
      q ≤ s.a ∧ (64 ≤ n.toNat → q = 0 ∧ (t = .regA ∨ t = .regB ∨ t = .regC)) ∧ (s.a = 0 → q = 0)) ∧
  (∀ s : State, exec (.shiftA (.literal 0)) s = .next { s with pc := s.pc + 2 }) ∧
  (∀ s : State, exec (.shiftA .regA) s = .next { s with a := 0, pc := s.pc + 2 }) ∧
  (∀ s : State, exec (.shiftA .reserved) s = .next { s with status := .faulted, cause := .reservedOperand }) ∧
  OverrunsAtLastEntry 0

/-- spec/40_shift.md R62, whole: the dividend is A and the destination B; B is read as the count before it is written. -/
def Obligations.ShiftBDividesAIntoB : Prop :=
  (∀ t : Combo, encode (.shiftB t) = [6, encodeCombo t] ∧ decode [6, encodeCombo t] = .ok (.shiftB t, [])) ∧
  (∀ (t : Combo) (s : State) (n : Word), resolveCombo t s = some n →
    ∃ q : Word, q.toNat = s.a.toNat / 2 ^ n.toNat ∧ exec (.shiftB t) s = .next { s with b := q, pc := s.pc + 2 } ∧
      (64 ≤ n.toNat → q = 0)) ∧
  (∀ s : State, exec (.shiftB (.literal 0)) s = .next { s with b := s.a, pc := s.pc + 2 }) ∧
  (∀ s : State, exec (.shiftB .regA) s = .next { s with b := 0, pc := s.pc + 2 }) ∧
  (∀ s : State, ∃ q : Word, q.toNat = s.a.toNat / 2 ^ s.b.toNat ∧
    exec (.shiftB .regB) s = .next { s with b := q, pc := s.pc + 2 }) ∧
  (∀ (t : Combo) (s : State) (v : Word), t ≠ .regB → t ≠ .reserved →
    exec (.shiftB t) { s with b := v } = exec (.shiftB t) s) ∧
  (∀ s : State, exec (.shiftB .reserved) s = .next { s with status := .faulted, cause := .reservedOperand }) ∧
  OverrunsAtLastEntry 6

/-- spec/40_shift.md R63, whole: the dividend is A and the destination C; C is read as the count before it is written. -/
def Obligations.ShiftCDividesAIntoC : Prop :=
  (∀ t : Combo, encode (.shiftC t) = [7, encodeCombo t] ∧ decode [7, encodeCombo t] = .ok (.shiftC t, [])) ∧
  (∀ (t : Combo) (s : State) (n : Word), resolveCombo t s = some n →
    ∃ q : Word, q.toNat = s.a.toNat / 2 ^ n.toNat ∧ exec (.shiftC t) s = .next { s with c := q, pc := s.pc + 2 } ∧
      (64 ≤ n.toNat → q = 0)) ∧
  (∀ s : State, exec (.shiftC (.literal 0)) s = .next { s with c := s.a, pc := s.pc + 2 }) ∧
  (∀ s : State, exec (.shiftC .regA) s = .next { s with c := 0, pc := s.pc + 2 }) ∧
  (∀ s : State, ∃ q : Word, q.toNat = s.a.toNat / 2 ^ s.c.toNat ∧
    exec (.shiftC .regC) s = .next { s with c := q, pc := s.pc + 2 }) ∧
  (∀ s : State, exec (.shiftC .reserved) s = .next { s with status := .faulted, cause := .reservedOperand }) ∧
  OverrunsAtLastEntry 7

/-- spec/41_bitwise_b.md R70, whole: the literal is the operand entry itself, all eight values are legal, bits 63 to 3 of B are
kept, and applying the instruction twice restores B. -/
def Obligations.XorLiteralChangesLowBitsOfB : Prop :=
  (∀ n : Entry, encode (.xorLiteral n) = [1, n] ∧ decode [1, n] = .ok (.xorLiteral n, [])) ∧
  (∀ (n : Entry) (s : State), ∃ v : Word,
    v = s.b ^^^ BitVec.ofNat 64 n.toNat ∧ exec (.xorLiteral n) s = .next { s with b := v, pc := s.pc + 2 } ∧
    (∀ i, 3 ≤ i → v.getLsbD i = s.b.getLsbD i) ∧ (n = 0 → v = s.b) ∧
    ∀ t, exec (.xorLiteral n) s = .next t → exec (.xorLiteral n) t = .next { s with pc := s.pc + 4 }) ∧
  OverrunsAtLastEntry 1

/-- spec/41_bitwise_b.md R71, whole: the resolved operand modulo 8 goes to B, whose old value is discarded. -/
def Obligations.ModBLoadsOperandModEight : Prop :=
  (∀ t : Combo, encode (.modB t) = [2, encodeCombo t] ∧ decode [2, encodeCombo t] = .ok (.modB t, [])) ∧
  (∀ (t : Combo) (s : State) (x : Word), resolveCombo t s = some x →
    ∃ v : Word, v.toNat = x.toNat % 8 ∧ exec (.modB t) s = .next { s with b := v, pc := s.pc + 2 } ∧
      (∀ i, 3 ≤ i → v.getLsbD i = false)) ∧
  (∀ (n : BitVec 2) (s : State),
    exec (.modB (.literal n)) s = .next { s with b := BitVec.ofNat 64 n.toNat, pc := s.pc + 2 }) ∧
  (∀ (t : Combo) (s : State) (w : Word), t ≠ .regB → t ≠ .reserved → exec (.modB t) { s with b := w } = exec (.modB t) s) ∧
  (∀ s : State, exec (.modB .reserved) s = .next { s with status := .faulted, cause := .reservedOperand }) ∧
  OverrunsAtLastEntry 2

/-- spec/41_bitwise_b.md R72, whole: B is xored with C over all 64 bits whatever the operand entry, 7 included. -/
def Obligations.XorRegistersIgnoresItsOperand : Prop :=
  (∀ n : Entry, encode (.xorRegisters n) = [4, n] ∧ decode [4, n] = .ok (.xorRegisters n, [])) ∧
  (∀ (n : Entry) (s : State), ∃ v : Word, (∀ i, v.getLsbD i = (s.b.getLsbD i ^^ s.c.getLsbD i)) ∧
    exec (.xorRegisters n) s = .next { s with b := v, pc := s.pc + 2 } ∧ (s.c = 0 → v = s.b) ∧ (s.b = s.c → v = 0)) ∧
  OverrunsAtLastEntry 4

/-- spec/42_jump.md R80, whole: taken on any non-zero A to the literal index, else the advance; nothing but `pc` is written; the
halt check follows; and a taken jump to its own index never ends. -/
def Obligations.JumpIfNonzeroSetsPc : Prop :=
  (∀ n : Entry, encode (.jumpIfNonzero n) = [3, n] ∧ decode [3, n] = .ok (.jumpIfNonzero n, [])) ∧
  (∀ (n : Entry) (s : State), s.a ≠ 0 → exec (.jumpIfNonzero n) s = .next { s with pc := n.toNat }) ∧
  (∀ (n : Entry) (s : State), s.a = 0 → exec (.jumpIfNonzero n) s = .next { s with pc := s.pc + 2 }) ∧
  (∀ (n : Entry) (s : State), Executes s (.jumpIfNonzero n) → s.a ≠ 0 →
    step s = .next { s with pc := n.toNat, status := if s.program.length ≤ n.toNat then .halted else .running }) ∧
  (∀ (n : Entry) (s : State), Executes s (.jumpIfNonzero n) → s.a = 0 →
    step s = .next { s with pc := s.pc + 2, status := if s.program.length ≤ s.pc + 2 then .halted else .running }) ∧
  (∀ (n : Entry) (s : State), Executes s (.jumpIfNonzero n) → s.a ≠ 0 → n.toNat = s.pc → ∀ k, run k s = .next s) ∧
  OverrunsAtLastEntry 3

/-- spec/43_emit.md R85, whole: the operand modulo 8 is appended at the end of OUT, no register is written, the append cannot fail. -/
def Obligations.EmitAppendsOperandModEight : Prop :=
  (∀ t : Combo, encode (.emit t) = [5, encodeCombo t] ∧ decode [5, encodeCombo t] = .ok (.emit t, [])) ∧
  (∀ (t : Combo) (s : State) (x : Word), resolveCombo t s = some x →
    ∃ v : Entry, v.toNat = x.toNat % 8 ∧ exec (.emit t) s = .next { s with out := s.out ++ [v], pc := s.pc + 2 }) ∧
  (∀ (n : BitVec 2) (s : State),
    exec (.emit (.literal n)) s = .next { s with out := s.out ++ [BitVec.ofNat 3 n.toNat], pc := s.pc + 2 }) ∧
  (∀ s : State, exec (.emit .reserved) s = .next { s with status := .faulted, cause := .reservedOperand }) ∧
  OverrunsAtLastEntry 5

/-- The table of spec/10_state.md section 2, writes: no instruction writes a register its row does not name, none writes two;
OUT changes by `emit` alone, STATUS and CAUSE by the reserved operand alone, and every entry of the program store reads as before. -/
def Obligations.InstructionsWriteOnlyTheirDestination : Prop :=
  ∀ (i : Instr) (s t : State), exec i s = .next t →
    (∀ r : Reg, writesReg i r = false → getReg r t = getReg r s) ∧
    (∀ q r : Reg, writesReg i q = true → writesReg i r = true → q = r) ∧
    ((∀ c, i ≠ .emit c) → t.out = s.out) ∧
    (i.wf = true → t.status = s.status ∧ t.cause = s.cause) ∧
    (i.wf = false → t = { s with status := .faulted, cause := .reservedOperand }) ∧
    (∀ k, readEntry t.program k = readEntry s.program k)

/-- The table of spec/10_state.md section 2, reads: changing a register an instruction does not read changes nothing else that
the instruction leaves behind, and not the value it writes there if it writes that register. -/
def Obligations.InstructionsReadOnlyTheirSources : Prop :=
  ∀ (i : Instr) (r : Reg) (v : Word) (s t : State), readsReg i r = false → exec i s = .next t →
    ∃ u, exec i (setReg r v s) = .next u ∧
      (∀ q : Reg, q ≠ r → getReg q u = getReg q t) ∧
      u.pc = t.pc ∧ u.out = t.out ∧ u.status = t.status ∧ u.cause = t.cause ∧ u.program = t.program ∧
      (writesReg i r = true → i.wf = true → getReg r u = getReg r t) ∧
      (writesReg i r = false ∨ i.wf = false → getReg r u = v)

/-! ## The step -/

/-- The step at a state whose entries at `pc` decode to a well-formed instruction is that instruction's `exec`, followed by the
halt check: STATUS becomes HALTED where the new `pc` is at or past LEN. -/
def Obligations.StepRunsTheDecodedInstruction : Prop :=
  ∀ (s : State) (i : Instr) (rest : List Entry), s.status = .running → i.wf = true →
    decode (memRead s.program s.pc 2) = .ok (i, rest) →
    ∃ t, exec i s = .next t ∧
      step s = .next (if s.program.length ≤ t.pc then { t with status := .halted } else t)

/-- spec/30_encoding.md R53, whole: the four lines of the step in their order, the invariant of RUNNING, and nothing in any
other status. -/
def Obligations.StepPerformsItsFourLines : Prop :=
  (∀ s : State, s.status = .running → s.pc + 1 = s.program.length →
    step s = .next { s with status := .faulted, cause := .operandOverrun }) ∧
  (∀ (s : State) (h : s.pc + 1 < s.program.length), s.status = .running →
    takesCombo (s.program[s.pc]'(Nat.lt_of_succ_lt h)) = true → s.program[s.pc + 1] = 7 →
    step s = .next { s with status := .faulted, cause := .reservedOperand }) ∧
  (∀ (s : State) (h : s.pc + 1 < s.program.length), s.status = .running →
    (takesCombo (s.program[s.pc]'(Nat.lt_of_succ_lt h)) = false ∨ s.program[s.pc + 1] ≠ 7) →
    ∃ t, exec (decodePair (s.program[s.pc]'(Nat.lt_of_succ_lt h)) s.program[s.pc + 1]) s = .next t ∧
      t.status = .running ∧
      step s = .next (if s.program.length ≤ t.pc then { t with status := .halted } else t)) ∧
  (∀ s : State, s.status ≠ .running → step s = .next s) ∧
  (∀ s t : State, step s = .next t → s.status = .running → t.status = .running → t.pc < t.program.length)

/-- spec/10_state.md R15, whole: a completed instruction other than a taken jump adds 2, a taken jump sets the operand, a fault
and a device that is not RUNNING leave `pc` alone. -/
def Obligations.PcAdvancesByTwoOrJumps : Prop :=
  (∀ (s t : State) (i : Instr), Executes s i → i.wf = true → (∀ n, i ≠ .jumpIfNonzero n) → step s = .next t → t.pc = s.pc + 2) ∧
  (∀ (s t : State) (n : Entry), Executes s (.jumpIfNonzero n) → step s = .next t →
    t.pc = if s.a ≠ 0 then n.toNat else s.pc + 2) ∧
  (∀ s t : State, s.status = .running → step s = .next t → t.status = .faulted → t.pc = s.pc) ∧
  (∀ s t : State, s.status ≠ .running → step s = .next t → t.pc = s.pc)

/-- spec/70_reset_and_hazards.md R114: the halt is the end of a step that leaves `pc` at or past LEN and changes STATUS alone; a halted
run keeps its final state; `pc` at the halt is LEN, or the target of a taken jump between LEN and 7. -/
def Obligations.RunHaltsAtProgramEnd : Prop :=
  (∀ (s t : State) (i : Instr), Executes s i → exec i s = .next t → t.status = .running →
    (s.program.length ≤ t.pc → step s = .next { t with status := .halted }) ∧
    (t.pc < s.program.length → step s = .next t)) ∧
  (∀ s t : State, s.status = .running → step s = .next t → t.status = .halted →
    t.program.length ≤ t.pc ∧ t.cause = s.cause ∧
    (t.pc = t.program.length ∨
      ∃ n : Entry, fetch s = .ok (.jumpIfNonzero n, []) ∧ s.a ≠ 0 ∧ t.pc = n.toNat ∧ t.program.length ≤ n.toNat ∧ n.toNat ≤ 7)) ∧
  (∀ s : State, s.status = .halted → ∀ k, run k s = .next s) ∧
  (∀ (a b c : Word) (p : Program) (s t : State), launch a b c p s = some t →
    t.status ≠ .halted ∧ (t.status = .running → t.pc < t.program.length))

/-! ## Faults -/

/-- spec/60_exceptions.md R92: the step raises RESERVED_OPERAND exactly at a pair of an opcode 0, 2, 5, 6 or 7 and the entry 7,
and never for opcode 1, 3 or 4; the launch does not look for such pairs; the tag has no value. -/
def Obligations.ReservedOperandFaultsAtExecution : Prop :=
  (∀ s : State, s.status = .running → (readEntry s.program s.pc).any takesCombo = true →
    readEntry s.program (s.pc + 1) = some 7 →
    step s = .next { s with status := .faulted, cause := .reservedOperand }) ∧
  (∀ s t : State, s.status = .running → s.cause = .none → step s = .next t → t.cause = .reservedOperand →
    (readEntry s.program s.pc).any takesCombo = true ∧ readEntry s.program (s.pc + 1) = some 7 ∧
      readEntry s.program s.pc ≠ some 1 ∧ readEntry s.program s.pc ≠ some 3 ∧ readEntry s.program s.pc ≠ some 4) ∧
  (∀ (a b c : Word) (p : Program) (s t : State), launch a b c p s = some t → t.cause ≠ .reservedOperand) ∧
  (∀ s : State, resolveCombo .reserved s = none)

/-- spec/60_exceptions.md R93: the step raises OPERAND_OVERRUN exactly at `pc` = LEN - 1, whatever the entry there; with an even
LEN such a `pc` is odd, which only a taken jump to an odd target makes of an even one; an odd LEN is refused at launch. -/
def Obligations.OperandOverrunAtLastEntry : Prop :=
  (∀ s : State, s.status = .running → s.pc + 1 = s.program.length →
    step s = .next { s with status := .faulted, cause := .operandOverrun }) ∧
  (∀ s t : State, s.status = .running → s.cause = .none → step s = .next t → t.cause = .operandOverrun →
    s.pc + 1 = s.program.length ∧ (s.program.length % 2 = 0 → s.pc % 2 = 1)) ∧
  (∀ s t : State, s.status = .running → s.pc % 2 = 0 → step s = .next t → t.pc % 2 = 1 →
    ∃ n : Entry, fetch s = .ok (.jumpIfNonzero n, []) ∧ s.a ≠ 0 ∧ n.toNat % 2 = 1 ∧ t.pc = n.toNat) ∧
  (∀ (a b c : Word) (p : Program) (s t : State), p.length % 2 = 1 → launch a b c p s = some t → t.cause = .badProgram)

/-- spec/60_exceptions.md R95: a step that faults writes STATUS and CAUSE and nothing else, and the executor takes no step after it. -/
def Obligations.FaultsArePrecise : Prop :=
  ∀ s t : State, s.status = .running → step s = .next t → t.status = .faulted →
    t = { s with status := .faulted, cause := t.cause } ∧
    (t.cause = .reservedOperand ∨ t.cause = .operandOverrun) ∧
    ∀ k, run k t = .next t

/-- spec/60_exceptions.md R94: a launch with a bad length ends in FAULTED with BAD_PROGRAM, `pc` 0, OUT empty, the registers at
the launch values, and no step is taken; the operands are not checked. -/
def Obligations.BadLengthIsRefusedAtLaunch : Prop :=
  (∀ (a b c : Word) (p : Program) (s : State), s.status ≠ .running →
    (p.length = 0 ∨ p.length % 2 = 1 ∨ 65534 < p.length) →
    ∃ t, launch a b c p s = some t ∧ t.status = .faulted ∧ t.cause = .badProgram ∧ t.pc = 0 ∧ t.out = [] ∧
      t.a = a ∧ t.b = b ∧ t.c = c ∧ ∀ k, run k t = .next t) ∧
  (∀ (a b c : Word) (p q : Program) (s : State), s.status ≠ .running → p.length = q.length →
    (launch a b c p s).map State.status = (launch a b c q s).map State.status ∧
    (launch a b c p s).map State.cause = (launch a b c q s).map State.cause)

/-- Programs of spec/30_encoding.md section 6: the model's check is the rule's conditions (a) to (d), said by index. -/
def Obligations.WellFormedMeansItsConditions : Prop :=
  (∀ p : Program, wellFormed p = true ↔
    0 < p.length ∧ p.length % 2 = 0 ∧
      ∀ k x, 2 * k < p.length → readEntry p (2 * k) = some x → takesCombo x = true → readEntry p (2 * k + 1) ≠ some 7) ∧
  (∀ p : Program, jumpAligned p = true ↔
    ∀ k n, readEntry p (2 * k) = some 3 → readEntry p (2 * k + 1) = some n → n.toNat % 2 = 0) ∧
  (∀ x : Entry, takesCombo x = true ↔ x = 0 ∨ x = 2 ∨ x = 5 ∨ x = 6 ∨ x = 7)

/-- The no-fault property, one step (spec/30_encoding.md section 6, a derived sentence): from every state of a run of a
well-formed, jump-aligned program of acceptable length the step answers such a state again. -/
def Obligations.AlignedRunsStayAligned : Prop :=
  ∀ s : State, AlignedRun s → ∃ t, step s = .next t ∧ AlignedRun t

/-- Well-formed input never faults (spec/60_exceptions.md section 3, a derived sentence): launched with any registers, no
number of steps of a well-formed, jump-aligned program faults. The rule leaves PLEN_MAX out; a longer program is refused at
launch, so an acceptable length is asked for here (log entry 12). -/
def Obligations.WellFormedProgramsNeverFault : Prop :=
  ∀ (a b c : Word) (p : Program) (s t : State), hostValidates p = true → launch a b c p s = some t → NeverFaults t

/-! ## Registers of the device -/

/-- spec/10_state.md R19: the encodings of STATUS, and how each status is entered and left. -/
def Obligations.StatusIsEnteredAndLeftAsListed : Prop :=
  (statusCode .idle = 0b00 ∧ statusCode .running = 0b01 ∧ statusCode .halted = 0b10 ∧ statusCode .faulted = 0b11) ∧
  (∀ s : State, readStatus s = statusCode s.status) ∧
  (∀ code : BitVec 2, ∃ st, statusCode st = code) ∧
  (∀ s : State, s.status ≠ .running → ∀ k, run k s = .next s) ∧
  (∀ s t : State, s.status = .running → step s = .next t →
    (t.status = .halted ↔ t.status ≠ .faulted ∧ t.program.length ≤ t.pc) ∧
    (t.status = .running ∨ t.status = .halted ∨ t.status = .faulted)) ∧
  (∀ (a b c : Word) (p : Program) (s t : State), launch a b c p s = some t →
    s.status ≠ .running ∧ (t.status = .running ∨ (t.status = .faulted ∧ t.cause = .badProgram))) ∧
  (∀ (a b c : Word) (p : Program) (s : State), s.status ≠ .running → ∃ t, launch a b c p s = some t) ∧
  (∀ (u : Unspecified) (s : State), (coldReset u s).status = .idle)

/-- spec/10_state.md R20: the encodings of CAUSE, and that it reads NONE in every status but FAULTED. -/
def Obligations.CauseReadsNoneUnlessFaulted : Prop :=
  (causeCode .none = 0b00 ∧ causeCode .reservedOperand = 0b01 ∧ causeCode .operandOverrun = 0b10 ∧ causeCode .badProgram = 0b11) ∧
  (∀ s : State, s.status ≠ .faulted → readCause s = 0b00) ∧
  (∀ s : State, s.status = .faulted → readCause s = causeCode s.cause)

/-- spec/10_state.md R18: a step appends at most the value of the `emit` it executes, at the end; OUT is empty at the start of a
run and fixed once the run has halted; no instruction reads it; an emit with a legal operand is never refused. -/
def Obligations.OutputIsAppendOnly : Prop :=
  (∀ s t : State, step s = .next t → t.out = s.out ++ (emitted s).toList) ∧
  (∀ (i : Instr) (s t : State), exec i s = .next t → t.out ≠ s.out →
    ∃ (c : Combo) (v : Entry), i = .emit c ∧ t.out = s.out ++ [v]) ∧
  (∀ (a b c : Word) (p : Program) (s t : State), launch a b c p s = some t → t.out = []) ∧
  (∀ s : State, s.status = .halted → ∀ k t, run k s = .next t → t.out = s.out) ∧
  (∀ (i : Instr) (o : List Entry) (s t : State), exec i s = .next t →
    ∃ added, t.out = s.out ++ added ∧ exec i { s with out := o } = .next { t with out := o ++ added }) ∧
  (∀ (c : Combo) (s : State), c.wf = true → ∃ v, exec (.emit c) s = .next { s with out := s.out ++ [v], pc := s.pc + 2 }) ∧
  (∀ s : State, (s.status = .halted ∨ s.status = .faulted) → (readback s).map Readback.out = some s.out)

/-- OUT of a run (spec/43_emit.md section 2): after any number of steps from launch it is the list, in execution order, of the
values of the executed `emit` instructions. -/
def Obligations.OutputListsTheEmissions : Prop :=
  ∀ (a b c : Word) (p : Program) (s t u : State) (n : Nat), launch a b c p s = some t → run n t = .next u →
    u.out = emissions n t ∧ u.out.length ≤ n

/-! ## The program store -/

/-- spec/20_memory.md R39: no step writes the program store, so every fetch returns entries the host loaded, and the host has no
launch during a run. -/
def Obligations.ProgramStoreIsConstantInARun : Prop :=
  (∀ (a b c : Word) (p : Program) (s t u : State) (n : Nat), launch a b c p s = some t → run n t = .next u →
    u.program = p ∧ (∀ k, readEntry u.program k = readEntry p k) ∧ memRead u.program u.pc 2 = memRead p u.pc 2) ∧
  (∀ (i : Instr) (s t : State), exec i s = .next t → t.program = s.program) ∧
  (∀ (a b c : Word) (p : Program) (s : State), s.status = .running → launch a b c p s = none)

/-! ## Reset, launch and runs -/

/-- spec/70_reset_and_hazards.md R110: what cold reset leaves, whatever it leaves unspecified; it discards a run; the executor takes
no step in IDLE; and the unspecified values are gone after the next launch. -/
def Obligations.ColdResetLeavesIdle : Prop :=
  (∀ (u : Unspecified) (s : State), (coldReset u s).status = .idle ∧ (coldReset u s).cause = .none ∧
    (coldReset u s).pc = 0 ∧ (coldReset u s).out = [] ∧ ∀ k, run k (coldReset u s) = .next (coldReset u s)) ∧
  (∀ (u : Unspecified) (s s' : State), coldReset u s = coldReset u s') ∧
  (∀ (u u' : Unspecified) (s s' : State) (a b c : Word) (p : Program),
    ∃ t, launch a b c p (coldReset u s) = some t ∧ launch a b c p (coldReset u' s') = some t)

/-- The model's reset state is a cold reset. Its zero registers and empty program store are the model's choice (log entries 3 and
4), not the spec's. -/
def Obligations.ResetStateIsAColdReset : Prop :=
  (∀ s : State, State.reset = coldReset ⟨0, 0, 0, []⟩ s) ∧ Memory.wf State.reset.program = true ∧
    step State.reset = .next State.reset

/-- spec/70_reset_and_hazards.md R111: what a launch writes, when it is possible, and that nothing of the state before survives. -/
def Obligations.LaunchWritesTheWholeState : Prop :=
  (∀ (a b c : Word) (p : Program) (s : State), s.status = .running → launch a b c p s = none) ∧
  (∀ (a b c : Word) (p : Program) (s : State), s.status ≠ .running → ∃ t, launch a b c p s = some t ∧
    t.program = p ∧ t.a = a ∧ t.b = b ∧ t.c = c ∧ t.pc = 0 ∧ t.out = [] ∧
    ((p.length = 0 ∨ p.length % 2 = 1 ∨ 65534 < p.length) → t.status = .faulted ∧ t.cause = .badProgram) ∧
    (¬(p.length = 0 ∨ p.length % 2 = 1 ∨ 65534 < p.length) →
      t.status = .running ∧ t.cause = .none ∧ t.pc < t.program.length)) ∧
  (∀ (a b c : Word) (p : Program) (s s' : State), s.status ≠ .running → s'.status ≠ .running →
    launch a b c p s = launch a b c p s')

/-- spec/70_reset_and_hazards.md R118: during a run the host can neither launch nor read, and cold reset abandons the run; it reads in
HALTED and FAULTED, and what it reads is the state. -/
def Obligations.HostActsOnlyOnAStoppedRun : Prop :=
  (∀ s : State, s.status = .running → readback s = none ∧ (∀ a b c p, launch a b c p s = none) ∧
    ∀ u, (coldReset u s).status = .idle) ∧
  (∀ s : State, (s.status = .halted ∨ s.status = .faulted) ↔ (readback s).isSome = true) ∧
  (∀ (s : State) (r : Readback), readback s = some r →
    r.a = s.a ∧ r.b = s.b ∧ r.c = s.c ∧ r.pc = s.pc ∧ r.out = s.out)

/-- The run contract (spec/70_reset_and_hazards.md section 3, spec/60_exceptions.md section 6): Simulate answers OUT of a run that
halts, a failure naming CAUSE of a run that faults, whatever the budget beyond that; and the answer is a function of the inputs
alone. That the step budget is an argument, that a run which never stops uses up every budget, and that there is always an answer
are the model's choice (log entry 14): the spec says that an endless call never returns. -/
def Obligations.SimulateAnswersTheRunsEnd : Prop :=
  (∀ (a b c : Word) (p : Program) (s t u : State) (k n : Nat), launch a b c p s = some t → run k t = .next u → k ≤ n →
    (u.status = .halted → simulate n a b c p s = some (.output u.out) ∧
      readback u = some ⟨u.a, u.b, u.c, u.pc, u.out⟩) ∧
    (u.status = .faulted → simulate n a b c p s = some (.failure u.cause))) ∧
  (∀ (a b c : Word) (p : Program) (s t : State), launch a b c p s = some t →
    (∀ k u, run k t = .next u → u.status = .running) → ∀ n, simulate n a b c p s = some .overBudget) ∧
  (∀ (a b c : Word) (p : Program) (s s' : State) (n : Nat), s.status ≠ .running → s'.status ≠ .running →
    simulate n a b c p s = simulate n a b c p s' ∧ (simulate n a b c p s).isSome = true)

/-- The invariant holds after every cold reset and after every launch. -/
def Obligations.ResetAndLaunchMeetTheInvariant : Prop :=
  MachineInvariant State.reset ∧ (∀ (u : Unspecified) (s : State), MachineInvariant (coldReset u s)) ∧
  (∀ (a b c : Word) (p : Program) (s t : State), launch a b c p s = some t → MachineInvariant t)

/-- The invariant of the machine is kept by every step, from every state that meets it. -/
def Obligations.StepKeepsTheInvariant : Prop :=
  ∀ s t : State, MachineInvariant s → step s = .next t → MachineInvariant t

/-- The model never stops: from every state that meets the invariant the step answers a next state, which meets it again, so a
run of any length does. -/
def Obligations.InvariantRunsNeverStop : Prop :=
  (∀ s : State, MachineInvariant s → ∃ t, step s = .next t) ∧
  (∀ (s : State) (n : Nat), MachineInvariant s → ∃ t, run n s = .next t ∧ MachineInvariant t)

/-- The bound of the instruction pointer (spec/10_state.md section 3, a derived sentence): at every moment after a launch `pc` is at
most max(LEN, 7), so it fits the 16 bits the spec decides on and never wraps. The model's `pc` is a natural number (log entry 1). -/
def Obligations.PointerFitsSixteenBits : Prop :=
  ∀ (a b c : Word) (p : Program) (s t u : State) (n : Nat), launch a b c p s = some t → run n t = .next u →
    u.pc ≤ max p.length 7 ∧ u.pc < 2 ^ Config.pointerWidth

/-- Register A never grows in a run, since shift-A alone writes it (spec/40_shift.md section 2). -/
def Obligations.RegisterANeverGrows : Prop :=
  ∀ (s t : State) (n : Nat), run n s = .next t → t.a ≤ s.a

/-- A straight line ends: a validated program without a laid-out jump runs its LEN / 2 instructions in order, at `pc` = 2k after
k steps, and halts with `pc` = LEN after exactly that many. -/
def Obligations.StraightLineProgramsHalt : Prop :=
  ∀ (a b c : Word) (p : Program) (s t : State), hostValidates p = true → straightLine p = true → launch a b c p s = some t →
    (∀ k, k < p.length / 2 → ∃ u, run k t = .next u ∧ u.status = .running ∧ u.pc = 2 * k) ∧
    (∃ u, run (p.length / 2) t = .next u ∧ u.status = .halted ∧ u.cause = .none ∧ u.pc = p.length)

/-- Once A is 0 every run ends (spec/42_jump.md section 1; A stays 0 by spec/40_shift.md section 2): no jump is taken any more, so
a running machine that meets the invariant stops within LEN - pc steps, in HALTED or, from an odd `pc` or a reserved operand, in
FAULTED; a validated, aligned one in HALTED (spec/30_encoding.md section 6). -/
def Obligations.RunsEndOnceAIsZero : Prop :=
  (∀ s : State, MachineInvariant s → s.status = .running → s.a = 0 →
    ∃ k t, k ≤ s.program.length - s.pc ∧ run k s = .next t ∧ (t.status = .halted ∨ t.status = .faulted) ∧
      (s.pc % 2 = 1 → t.status = .faulted)) ∧
  (∀ s : State, AlignedRun s → s.a = 0 → HaltsWithin (s.program.length - s.pc) s)
end

