-- ==== Sys2Proof/Laws/Program.lean ====
section
/-! SUPPORT. The program store: its canonical form, and what the named operations over it read and write. -/

namespace Sys2Proof.Machine

/-- The canonical form holds of every store. -/
theorem Memory.wf_all (p : Program) : Memory.wf p = true := by
  simp [Memory.wf, readEntry, List.all_eq_true]

/-- Loading a pair keeps the canonical form. -/
theorem storePair_wf (p : Program) (i : Nat) (pair : List Entry) : Memory.wf (storePair p i pair) = true :=
  Memory.wf_all _

/-- The store after cold reset has the canonical form. -/
theorem reset_memory_wf : Memory.wf State.reset.program = true := Memory.wf_all _

/-- Stores that read alike at every index are the same data. -/
theorem program_eq_of_reads {p q : Program} (h : ∀ i, readEntry p i = readEntry q i) : p = q := List.ext_getElem? h

theorem readEntry_none_iff (p : Program) (i : Nat) : readEntry p i = none ↔ p.length ≤ i := by simp [readEntry]

theorem readEntry_of_lt {p : Program} {i : Nat} (h : i < p.length) : readEntry p i = some p[i] := by
  simp [readEntry, h]

/-- Both entries exist: `MemRead(pc, 2)` is the pair. -/
theorem memRead_two {p : Program} {i : Nat} (h : i + 1 < p.length) :
    memRead p i 2 = [p[i]'(Nat.lt_of_succ_lt h), p[i + 1]] := by
  have h0 : i < p.length := Nat.lt_of_succ_lt h
  rw [memRead, List.drop_eq_getElem_cons h0, List.drop_eq_getElem_cons h]
  rfl

/-- At the last index only the opcode entry exists. -/
theorem memRead_last {p : Program} {i : Nat} (h : i + 1 = p.length) : ∃ o, memRead p i 2 = [o] := by
  have h0 : i < p.length := by omega
  refine ⟨p[i], ?_⟩
  rw [memRead, List.drop_eq_getElem_cons h0, List.drop_eq_nil_of_le (by omega)]
  rfl

/-- At or past the end nothing is read. -/
theorem memRead_past {p : Program} {i : Nat} (h : p.length ≤ i) : memRead p i 2 = [] := by
  simp [memRead, List.drop_eq_nil_of_le h]

/-- Where a pair is loaded within the store or at its end, the next fetch there reads it. -/
theorem memRead_storePair (p : Program) (i : Nat) (x y : Entry) : memRead (storePair p i [x, y]) i 2 = [x, y] := by
  have hl : (p.take i ++ List.replicate (i - p.length) (0 : Entry)).length = i := by
    simp only [List.length_append, List.length_take, List.length_replicate]; omega
  unfold memRead storePair
  rw [List.append_assoc, List.drop_append_of_le_length (by omega), List.drop_eq_nil_of_le (by omega)]
  simp

theorem acceptableLength_iff (n : Nat) :
    acceptableLength n = true ↔ 0 < n ∧ n % 2 = 0 ∧ n ≤ 65534 := by
  unfold acceptableLength Config.programLengthMax
  rw [Bool.and_eq_true, Bool.and_eq_true, decide_eq_true_iff, beq_iff_eq, decide_eq_true_iff, and_assoc]

/-- The laid-out instruction k is the pair at indices 2k and 2k + 1. -/
theorem laidOut_getElem? : ∀ (p : Program) (k : Nat),
    (laidOut p)[k]? = (match readEntry p (2 * k), readEntry p (2 * k + 1) with
      | some x, some y => some (x, y)
      | _, _ => none)
  | [], k => by simp [laidOut, readEntry]
  | [_], k => by cases k <;> simp [laidOut, readEntry]
  | x :: y :: rest, 0 => by simp [laidOut, readEntry]
  | x :: y :: rest, k + 1 => by
    have := laidOut_getElem? rest k
    simpa [laidOut, readEntry, Nat.mul_add, Nat.add_assoc] using this

end Sys2Proof.Machine
end

