-- ==== Sys2Proof/Laws/State.lean ====
section
/-! SUPPORT. One lemma per field per update of the state, so that no later proof unfolds a record update. -/

namespace Sys2Proof.Machine

@[simp] theorem setReg_a_a (v : Word) (s : State) : (setReg .a v s).a = v := rfl
@[simp] theorem setReg_a_b (v : Word) (s : State) : (setReg .a v s).b = s.b := rfl
@[simp] theorem setReg_a_c (v : Word) (s : State) : (setReg .a v s).c = s.c := rfl
@[simp] theorem setReg_b_a (v : Word) (s : State) : (setReg .b v s).a = s.a := rfl
@[simp] theorem setReg_b_b (v : Word) (s : State) : (setReg .b v s).b = v := rfl
@[simp] theorem setReg_b_c (v : Word) (s : State) : (setReg .b v s).c = s.c := rfl
@[simp] theorem setReg_c_a (v : Word) (s : State) : (setReg .c v s).a = s.a := rfl
@[simp] theorem setReg_c_b (v : Word) (s : State) : (setReg .c v s).b = s.b := rfl
@[simp] theorem setReg_c_c (v : Word) (s : State) : (setReg .c v s).c = v := rfl
@[simp] theorem setReg_pc (r : Reg) (v : Word) (s : State) : (setReg r v s).pc = s.pc := by cases r <;> rfl
@[simp] theorem setReg_out (r : Reg) (v : Word) (s : State) : (setReg r v s).out = s.out := by cases r <;> rfl
@[simp] theorem setReg_status (r : Reg) (v : Word) (s : State) : (setReg r v s).status = s.status := by cases r <;> rfl
@[simp] theorem setReg_cause (r : Reg) (v : Word) (s : State) : (setReg r v s).cause = s.cause := by cases r <;> rfl
@[simp] theorem setReg_program (r : Reg) (v : Word) (s : State) : (setReg r v s).program = s.program := by cases r <;> rfl

@[simp] theorem getReg_setReg_same (r : Reg) (v : Word) (s : State) : getReg r (setReg r v s) = v := by cases r <;> rfl

theorem getReg_setReg_other {q r : Reg} (h : q ≠ r) (v : Word) (s : State) : getReg q (setReg r v s) = getReg q s := by
  cases q <;> cases r <;> first | rfl | exact absurd rfl h

@[simp] theorem advance_a (s : State) : (advance s).a = s.a := rfl
@[simp] theorem advance_b (s : State) : (advance s).b = s.b := rfl
@[simp] theorem advance_c (s : State) : (advance s).c = s.c := rfl
@[simp] theorem advance_pc (s : State) : (advance s).pc = s.pc + 2 := rfl
@[simp] theorem advance_out (s : State) : (advance s).out = s.out := rfl
@[simp] theorem advance_status (s : State) : (advance s).status = s.status := rfl
@[simp] theorem advance_cause (s : State) : (advance s).cause = s.cause := rfl
@[simp] theorem advance_program (s : State) : (advance s).program = s.program := rfl

@[simp] theorem jumpTo_a (n : Entry) (s : State) : (jumpTo n s).a = s.a := rfl
@[simp] theorem jumpTo_b (n : Entry) (s : State) : (jumpTo n s).b = s.b := rfl
@[simp] theorem jumpTo_c (n : Entry) (s : State) : (jumpTo n s).c = s.c := rfl
@[simp] theorem jumpTo_pc (n : Entry) (s : State) : (jumpTo n s).pc = n.toNat := rfl
@[simp] theorem jumpTo_out (n : Entry) (s : State) : (jumpTo n s).out = s.out := rfl
@[simp] theorem jumpTo_status (n : Entry) (s : State) : (jumpTo n s).status = s.status := rfl
@[simp] theorem jumpTo_cause (n : Entry) (s : State) : (jumpTo n s).cause = s.cause := rfl
@[simp] theorem jumpTo_program (n : Entry) (s : State) : (jumpTo n s).program = s.program := rfl

@[simp] theorem appendOut_a (v : Entry) (s : State) : (appendOut v s).a = s.a := rfl
@[simp] theorem appendOut_b (v : Entry) (s : State) : (appendOut v s).b = s.b := rfl
@[simp] theorem appendOut_c (v : Entry) (s : State) : (appendOut v s).c = s.c := rfl
@[simp] theorem appendOut_pc (v : Entry) (s : State) : (appendOut v s).pc = s.pc := rfl
@[simp] theorem appendOut_out (v : Entry) (s : State) : (appendOut v s).out = s.out ++ [v] := rfl
@[simp] theorem appendOut_status (v : Entry) (s : State) : (appendOut v s).status = s.status := rfl
@[simp] theorem appendOut_cause (v : Entry) (s : State) : (appendOut v s).cause = s.cause := rfl
@[simp] theorem appendOut_program (v : Entry) (s : State) : (appendOut v s).program = s.program := rfl

@[simp] theorem raiseFault_a (k : Cause) (s : State) : (raiseFault k s).a = s.a := rfl
@[simp] theorem raiseFault_b (k : Cause) (s : State) : (raiseFault k s).b = s.b := rfl
@[simp] theorem raiseFault_c (k : Cause) (s : State) : (raiseFault k s).c = s.c := rfl
@[simp] theorem raiseFault_pc (k : Cause) (s : State) : (raiseFault k s).pc = s.pc := rfl
@[simp] theorem raiseFault_out (k : Cause) (s : State) : (raiseFault k s).out = s.out := rfl
@[simp] theorem raiseFault_status (k : Cause) (s : State) : (raiseFault k s).status = .faulted := rfl
@[simp] theorem raiseFault_cause (k : Cause) (s : State) : (raiseFault k s).cause = k := rfl
@[simp] theorem raiseFault_program (k : Cause) (s : State) : (raiseFault k s).program = s.program := rfl

@[simp] theorem coldReset_pc (u : Unspecified) (s : State) : (coldReset u s).pc = 0 := rfl
@[simp] theorem coldReset_out (u : Unspecified) (s : State) : (coldReset u s).out = [] := rfl
@[simp] theorem coldReset_status (u : Unspecified) (s : State) : (coldReset u s).status = .idle := rfl
@[simp] theorem coldReset_cause (u : Unspecified) (s : State) : (coldReset u s).cause = .none := rfl

@[simp] theorem coldReset_a (u : Unspecified) (s : State) : (coldReset u s).a = u.a := rfl
@[simp] theorem coldReset_b (u : Unspecified) (s : State) : (coldReset u s).b = u.b := rfl
@[simp] theorem coldReset_c (u : Unspecified) (s : State) : (coldReset u s).c = u.c := rfl
@[simp] theorem coldReset_program (u : Unspecified) (s : State) : (coldReset u s).program = u.program := rfl

@[simp] theorem launchState_a (a b c : Word) (p : Program) : (launchState a b c p).a = a := rfl
@[simp] theorem launchState_b (a b c : Word) (p : Program) : (launchState a b c p).b = b := rfl
@[simp] theorem launchState_c (a b c : Word) (p : Program) : (launchState a b c p).c = c := rfl
@[simp] theorem launchState_pc (a b c : Word) (p : Program) : (launchState a b c p).pc = 0 := rfl
@[simp] theorem launchState_out (a b c : Word) (p : Program) : (launchState a b c p).out = [] := rfl
@[simp] theorem launchState_program (a b c : Word) (p : Program) : (launchState a b c p).program = p := rfl

/-- All that a launch can do: it answers only outside RUNNING, and then the state it makes takes nothing from the one before. -/
theorem launch_cases {a b c : Word} {p : Program} {s t : State} (h : launch a b c p s = some t) :
    s.status ≠ .running ∧ t = launchState a b c p := by
  unfold launch at h
  split at h <;> first | (cases h; exact ⟨by simp [*], rfl⟩) | cases h

end Sys2Proof.Machine
end

