-- ==== Sys2Proof/Laws/Ops.lean ====
section
/-! SUPPORT. What each shared operation can do, said once: operand resolution, the fetch, the halt check, an instruction, a step. -/

namespace Sys2Proof.Machine

theorem decodeCombo_encodeCombo (t : Combo) : decodeCombo (encodeCombo t) = t := by
  cases t with
  | literal n => revert n; decide
  | regA => rfl
  | regB => rfl
  | regC => rfl
  | reserved => rfl

/-- A combo operand has no value exactly when it is the reserved tag. -/
theorem resolveCombo_none_iff (t : Combo) (s : State) : resolveCombo t s = none ↔ t = .reserved := by
  cases t <;> simp [resolveCombo]

theorem resolveCombo_isSome_iff (t : Combo) (s : State) : (resolveCombo t s).isSome = t.wf := by
  cases t <;> rfl

/-- All that an instruction with a combo operand can do. -/
theorem withCombo_cases {t : Combo} {s u : State} {f : Word → State} (h : withCombo t s f = .next u) :
    (∃ v, resolveCombo t s = some v ∧ u = f v) ∨ (t = .reserved ∧ u = raiseFault .reservedOperand s) := by
  cases hv : resolveCombo t s with
  | some v => left; refine ⟨v, rfl, ?_⟩; simpa [withCombo, hv, eq_comm] using h
  | none => right; exact ⟨(resolveCombo_none_iff t s).1 hv, by simpa [withCombo, hv, eq_comm] using h⟩

/-- An instruction with a combo operand always gives a next state. -/
theorem withCombo_next (t : Combo) (s : State) (f : Word → State) : ∃ u, withCombo t s f = .next u := by
  cases hv : resolveCombo t s with
  | some v => exact ⟨f v, by simp [withCombo, hv]⟩
  | none => exact ⟨raiseFault .reservedOperand s, by simp [withCombo, hv]⟩

/-- The jump's condition is that A is not zero. -/
theorem aNonzero_iff (s : State) : aNonzero s = true ↔ s.a ≠ 0 := by simp [aNonzero]

/-- The fetch where both entries exist. -/
theorem fetch_inside {s : State} (h : s.pc + 1 < s.program.length) :
    fetch s = .ok (decodePair (s.program[s.pc]'(Nat.lt_of_succ_lt h)) s.program[s.pc + 1], []) := by
  simp [fetch, memRead_two h, decode]

/-- The fetch at the last entry. -/
theorem fetch_last {s : State} (h : s.pc + 1 = s.program.length) : fetch s = .error .noOperand := by
  obtain ⟨o, ho⟩ := memRead_last h
  simp [fetch, ho, decode]

/-- The fetch at or past the end. -/
theorem fetch_past {s : State} (h : s.program.length ≤ s.pc) : fetch s = .error .noOpcode := by
  simp [fetch, memRead_past h, decode]

/-- The fetch at a state prepared by `withFetchWord` reads that word. -/
theorem fetch_withFetchWord (s : State) (nbits w : Nat) :
    fetch (s.withFetchWord nbits w) = .ok (decodePair (BitVec.ofNat 3 (w / 8)) (BitVec.ofNat 3 w), []) := by
  simp [fetch, State.withFetchWord, tableEntries, memRead_storePair, decode]

/-- A fetch that answers an instruction stood inside the program and leaves no entries over. -/
theorem fetch_ok {s : State} {i : Instr} {rest : List Entry} (h : fetch s = .ok (i, rest)) :
    ∃ hlt : s.pc + 1 < s.program.length,
      rest = [] ∧ i = decodePair (s.program[s.pc]'(Nat.lt_of_succ_lt hlt)) s.program[s.pc + 1] := by
  rcases Nat.lt_trichotomy (s.pc + 1) s.program.length with hl | he | hg
  · rw [fetch_inside hl] at h
    cases h
    exact ⟨hl, rfl, rfl⟩
  · rw [fetch_last he] at h; cases h
  · rw [fetch_past (by omega)] at h; cases h

@[simp] theorem haltCheck_a (s : State) : (haltCheck s).a = s.a := by unfold haltCheck; split <;> (try split) <;> rfl
@[simp] theorem haltCheck_b (s : State) : (haltCheck s).b = s.b := by unfold haltCheck; split <;> (try split) <;> rfl
@[simp] theorem haltCheck_c (s : State) : (haltCheck s).c = s.c := by unfold haltCheck; split <;> (try split) <;> rfl
@[simp] theorem haltCheck_pc (s : State) : (haltCheck s).pc = s.pc := by unfold haltCheck; split <;> (try split) <;> rfl
@[simp] theorem haltCheck_out (s : State) : (haltCheck s).out = s.out := by unfold haltCheck; split <;> (try split) <;> rfl
@[simp] theorem haltCheck_cause (s : State) : (haltCheck s).cause = s.cause := by unfold haltCheck; split <;> (try split) <;> rfl
@[simp] theorem haltCheck_program (s : State) : (haltCheck s).program = s.program := by
  unfold haltCheck; split <;> (try split) <;> rfl

/-- All that the halt check can do. -/
theorem haltCheck_cases (s : State) :
    (s.status = .running ∧ s.program.length ≤ s.pc ∧ haltCheck s = { s with status := .halted }) ∨
    (¬(s.status = .running ∧ s.program.length ≤ s.pc) ∧ haltCheck s = s) := by
  unfold haltCheck
  cases h : s.status <;> simp
  by_cases hl : s.program.length ≤ s.pc
  · simp [hl]
  · simp [hl, Nat.lt_of_not_le hl]

/-- All that an instruction can do: raise `RESERVED_OPERAND`, advance after writing one register, advance after appending to
OUT, jump, or advance. -/
theorem exec_cases {i : Instr} {s t : State} (h : exec i s = .next t) :
    (i.wf = false ∧ t = raiseFault .reservedOperand s) ∨
    (i.wf = true ∧ (∀ n, i ≠ .jumpIfNonzero n) ∧ (∀ c, i ≠ .emit c) ∧ ∃ r v, t = advance (setReg r v s)) ∨
    (i.wf = true ∧ ∃ c v, i = .emit c ∧ resolveCombo c s = some v ∧ t = advance (appendOut (mod8 v) s)) ∨
    (i.wf = true ∧ ∃ n, i = .jumpIfNonzero n ∧ s.a ≠ 0 ∧ t = jumpTo n s) ∨
    (i.wf = true ∧ ∃ n, i = .jumpIfNonzero n ∧ s.a = 0 ∧ t = advance s) := by
  have hwf : ∀ {c : Combo} {v : Word}, resolveCombo c s = some v → c.wf = true := fun {c v} hv => by
    rw [← resolveCombo_isSome_iff c s, hv]; rfl
  cases i with
  | shiftA c =>
    rcases withCombo_cases h with ⟨v, hv, rfl⟩ | ⟨rfl, rfl⟩
    · exact .inr (.inl ⟨hwf hv, by simp, by simp, .a, _, rfl⟩)
    · exact .inl ⟨rfl, rfl⟩
  | xorLiteral n => cases h; exact .inr (.inl ⟨rfl, by simp, by simp, .b, _, rfl⟩)
  | modB c =>
    rcases withCombo_cases h with ⟨v, hv, rfl⟩ | ⟨rfl, rfl⟩
    · exact .inr (.inl ⟨hwf hv, by simp, by simp, .b, _, rfl⟩)
    · exact .inl ⟨rfl, rfl⟩
  | jumpIfNonzero n =>
    by_cases ha : s.a = 0
    · refine .inr (.inr (.inr (.inr ⟨rfl, n, rfl, ha, ?_⟩)))
      simp only [exec, execJumpIfNonzero, aNonzero, bne_iff_ne, ne_eq, ha, not_true_eq_false, if_false,
        Host.Outcome.next.injEq] at h
      exact h.symm
    · refine .inr (.inr (.inr (.inl ⟨rfl, n, rfl, ha, ?_⟩)))
      simp only [exec, execJumpIfNonzero, aNonzero, bne_iff_ne, ne_eq, ha, not_false_eq_true, if_true,
        Host.Outcome.next.injEq] at h
      exact h.symm
  | xorRegisters n => cases h; exact .inr (.inl ⟨rfl, by simp, by simp, .b, _, rfl⟩)
  | emit c =>
    rcases withCombo_cases h with ⟨v, hv, rfl⟩ | ⟨rfl, rfl⟩
    · exact .inr (.inr (.inl ⟨hwf hv, c, v, rfl, hv, rfl⟩))
    · exact .inl ⟨rfl, rfl⟩
  | shiftB c =>
    rcases withCombo_cases h with ⟨v, hv, rfl⟩ | ⟨rfl, rfl⟩
    · exact .inr (.inl ⟨hwf hv, by simp, by simp, .b, _, rfl⟩)
    · exact .inl ⟨rfl, rfl⟩
  | shiftC c =>
    rcases withCombo_cases h with ⟨v, hv, rfl⟩ | ⟨rfl, rfl⟩
    · exact .inr (.inl ⟨hwf hv, by simp, by simp, .c, _, rfl⟩)
    · exact .inl ⟨rfl, rfl⟩

/-- Every instruction answers a next state. -/
theorem exec_next (i : Instr) (s : State) : ∃ t, exec i s = .next t := by
  cases i with
  | shiftA c => exact withCombo_next c s _
  | xorLiteral n => exact ⟨_, rfl⟩
  | modB c => exact withCombo_next c s _
  | jumpIfNonzero n => exact ⟨_, rfl⟩
  | xorRegisters n => exact ⟨_, rfl⟩
  | emit c => exact withCombo_next c s _
  | shiftB c => exact withCombo_next c s _
  | shiftC c => exact withCombo_next c s _

/-- All that a step can do: nothing outside RUNNING; raise `OPERAND_OVERRUN` at the last entry; or execute the fetched
instruction and check for the halt. -/
theorem step_cases {s t : State} (h : step s = .next t) :
    (s.status ≠ .running ∧ t = s) ∨
    (s.status = .running ∧ s.pc + 1 = s.program.length ∧ t = raiseFault .operandOverrun s) ∨
    (s.status = .running ∧ s.pc + 1 < s.program.length ∧
      ∃ i u, fetch s = .ok (i, []) ∧ exec i s = .next u ∧ t = haltCheck u) := by
  unfold step at h
  split at h
  · rename_i hr
    rcases Nat.lt_trichotomy (s.pc + 1) s.program.length with hl | he | hg
    · right; right
      refine ⟨hr, hl, ?_⟩
      have hf := fetch_inside hl
      obtain ⟨u, hu⟩ := exec_next (decodePair (s.program[s.pc]'(Nat.lt_of_succ_lt hl)) s.program[s.pc + 1]) s
      rw [hf] at h
      simp only [hu] at h
      cases h
      exact ⟨_, u, hf, hu, rfl⟩
    · right; left
      rw [fetch_last he] at h
      cases h
      exact ⟨hr, he, rfl⟩
    · rw [fetch_past (by omega)] at h
      cases h
  · left; cases h; exact ⟨by simp [*], rfl⟩
  · left; cases h; exact ⟨by simp [*], rfl⟩
  · left; cases h; exact ⟨by simp [*], rfl⟩

end Sys2Proof.Machine
end

