-- ==== Sys2Proof/Laws/PerInstr.lean ====
section
/-! SUPPORT. Facts about every instruction as syntax, one lemma per constructor. -/

namespace Sys2Proof.Laws

/-- Every instruction occupies exactly two entries, its opcode entry and its operand entry (spec/30_encoding.md R45, R57). -/
def FixedLength.Statement (i : Instr) : Prop :=
  (encode i).length = 2 ∧ (encode i)[0]? = some (opcodeEntry i) ∧ (encode i)[1]? = some (operandEntry i)

theorem FixedLength.shiftA (t : Combo) : FixedLength.Statement (.shiftA t) := ⟨rfl, rfl, rfl⟩
theorem FixedLength.xorLiteral (n : Entry) : FixedLength.Statement (.xorLiteral n) := ⟨rfl, rfl, rfl⟩
theorem FixedLength.modB (t : Combo) : FixedLength.Statement (.modB t) := ⟨rfl, rfl, rfl⟩
theorem FixedLength.jumpIfNonzero (n : Entry) : FixedLength.Statement (.jumpIfNonzero n) := ⟨rfl, rfl, rfl⟩
theorem FixedLength.xorRegisters (n : Entry) : FixedLength.Statement (.xorRegisters n) := ⟨rfl, rfl, rfl⟩
theorem FixedLength.emit (t : Combo) : FixedLength.Statement (.emit t) := ⟨rfl, rfl, rfl⟩
theorem FixedLength.shiftB (t : Combo) : FixedLength.Statement (.shiftB t) := ⟨rfl, rfl, rfl⟩
theorem FixedLength.shiftC (t : Combo) : FixedLength.Statement (.shiftC t) := ⟨rfl, rfl, rfl⟩

end Sys2Proof.Laws
end

