-- ==== Sys2Proof/Tests/Slice0.lean ====
section
/-! SUPPORT. The model's own tests: the well-formedness smoke, words decoded as the spec writes them, one step on small states with
results taken from spec/95_test_vectors.md, and witnesses that the statements' hypotheses can be met. -/

namespace Sys2Proof.Tests

open Sys2Proof.Machine

/-- A small state with a run in progress. -/
def st (a b c : Word) (pc : Nat) (p : Program) : State :=
  { a := a, b := b, c := c, pc := pc, out := [], status := .running, cause := .none, program := p }

/-- The same state in another status. -/
def stIn (status : Status) (cause : Cause) (s : State) : State := { s with status := status, cause := cause }

/-- The next state of an outcome, if it is one. -/
def nextOf (o : Host.Outcome State Fault Refusal) : Option State :=
  match o with
  | .next t => some t
  | .fault _ => none
  | .refused _ => none

/-! ## Well-formedness smoke -/

theorem test_wf_refuses_shiftA_tag7 : (Instr.shiftA .reserved).wf = false := by decide
theorem test_wf_refuses_modB_tag7 : (Instr.modB .reserved).wf = false := by decide
theorem test_wf_refuses_emit_tag7 : (Instr.emit .reserved).wf = false := by decide
theorem test_wf_refuses_shiftB_tag7 : (Instr.shiftB .reserved).wf = false := by decide
theorem test_wf_refuses_shiftC_tag7 : (Instr.shiftC .reserved).wf = false := by decide
theorem test_wf_accepts_seven_as_literal :
    (Instr.xorLiteral 7).wf && (Instr.jumpIfNonzero 7).wf && (Instr.xorRegisters 7).wf = true := by decide

/-! ## Decoding: words written out bit by bit from spec/30_encoding.md R51 -/

theorem test_decode_shiftA : decodeWord 0b000001 = .shiftA (.literal 1) := by decide
theorem test_decode_xorLiteral : decodeWord 0b001111 = .xorLiteral 7 := by decide
theorem test_decode_modB : decodeWord 0b010110 = .modB .regC := by decide
theorem test_decode_jumpIfNonzero : decodeWord 0b011100 = .jumpIfNonzero 4 := by decide
theorem test_decode_xorRegisters : decodeWord 0b100111 = .xorRegisters 7 := by decide
theorem test_decode_emit : decodeWord 0b101101 = .emit .regB := by decide
theorem test_decode_shiftB : decodeWord 0b110010 = .shiftB (.literal 2) := by decide
theorem test_decode_shiftC : decodeWord 0b111100 = .shiftC .regA := by decide
theorem test_decode_opcode_comes_first : decode [6, 2] = .ok (.shiftB (.literal 2), []) := by decide
theorem test_decode_no_operand : decode [4] = .error .noOperand := by decide
theorem test_decode_no_opcode : decode [] = .error .noOpcode := by decide
theorem test_tableWord_decodes : decodeTableWord 8 0x1c = some (.jumpIfNonzero 4) := by decide
theorem test_tableWord_has_six_bits : decodeTableWord 8 0x40 = none := by decide
/-- The assembly example of spec/30_encoding.md R55. -/
theorem test_assembly_example :
    (decodeAll [0, 1, 5, 4, 3, 0]).toOption.map (List.filterMap fun i => (disassemble i).map lineText) =
      some ["shift-A 1", "emit A", "jump-if-nonzero 0"] := by decide
theorem test_machine_form : machineForm [0, 1, 5, 4, 3, 0] = "[0,1,5,4,3,0]" := by decide

/-! ## Steps: the spec's vectors (spec/95_test_vectors.md; M is 2^64 - 1) -/

/-- T1.7: bit 63 is not propagated. -/
theorem test_shiftA_is_logical : (nextOf (step (st 0x8000000000000000 0 0 0 [0, 1]))).map State.a = some 0x4000000000000000 := by decide
/-- T1.10: a count equal to the width gives 0. -/
theorem test_shiftA_count_64 : (nextOf (step (st 0xFFFFFFFFFFFFFFFF 64 0 0 [0, 5]))).map State.a = some 0 := by decide
/-- T1.15: the old B is the count, then it is overwritten. -/
theorem test_shiftB_reads_old_b : (nextOf (step (st 1024 3 0 0 [6, 5]))).map (fun t => (t.a, t.b)) = some (1024, 128) := by decide
/-- T1.17: the count is not reduced modulo 64. -/
theorem test_shiftB_count_65 : (nextOf (step (st 0xFFFFFFFFFFFFFFFF 0 65 0 [6, 6]))).map State.b = some 0 := by decide
/-- T1.18: the destination is C. -/
theorem test_shiftC_destination : (nextOf (step (st 117440 0 0 0 [7, 3]))).map (fun t => (t.a, t.c)) = some (117440, 14680) := by decide
/-- T1.19: the old C is the count. -/
theorem test_shiftC_reads_old_c : (nextOf (step (st 37 0 2 0 [7, 6]))).map State.c = some 9 := by decide
/-- S4. -/
theorem test_xorLiteral_seven : (nextOf (step (st 0 29 0 0 [1, 7]))).map State.b = some 26 := by decide
/-- T2.2: only bits 2 to 0 change. -/
theorem test_xorLiteral_low_bits :
    (nextOf (step (st 0 0xFFFFFFFFFFFFFFFF 0 0 [1, 5]))).map State.b = some 18446744073709551610 := by decide
/-- S1. -/
theorem test_modB_takes_the_operand : (nextOf (step (st 0 0 9 0 [2, 6]))).map State.b = some 1 := by decide
/-- T2.6: the low three bits of a large A. -/
theorem test_modB_large : (nextOf (step (st 18446744073709551614 5 9 0 [2, 4]))).map State.b = some 6 := by decide
/-- T2.9: the operand 7 is ignored. -/
theorem test_xorRegisters_operand_seven : (nextOf (step (st 0 2024 43690 0 [4, 7]))).map State.b = some 44354 := by decide
/-- T2.12: all 64 bits take part. -/
theorem test_xorRegisters_all_bits :
    (nextOf (step (st 0 0xFFFFFFFFFFFFFFFF 1 0 [4, 4]))).map State.b = some 18446744073709551614 := by decide
/-- T3.4: a taken jump past the end halts at its target. -/
theorem test_jump_past_end_halts :
    (nextOf (step (st 1 0 0 0 [3, 6, 5, 0]))).map (fun t => (t.pc, t.status)) = some (6, .halted) := by decide
/-- T3.3 and T3.8: the test is on all 64 bits; not taken, the jump advances. -/
theorem test_jump_tests_all_bits :
    (nextOf (step (st 0x8000000000000000 0 0 2 [5, 1, 3, 0]))).map State.pc = some 0 ∧
      (nextOf (step (st 0 0 0 0 [3, 0]))).map (fun t => (t.pc, t.status)) = some (2, .halted) := by decide
/-- T4.1. -/
theorem test_emit_mod_eight : (nextOf (step (st 0 15 0 0 [5, 5]))).map (fun t => (t.out, t.b)) = some ([7], 15) := by decide
/-- T5.1: nothing is appended and `pc` is not advanced. -/
theorem test_emit_reserved :
    (nextOf (step (st 5 0 0 0 [5, 7]))).map (fun t => (t.status, t.cause, t.pc, t.out)) =
      some (.faulted, .reservedOperand, 0, []) := by decide
/-- P5, step 3: the overrun comes before the opcode 4 is looked at. -/
theorem test_overrun_at_last_entry :
    (nextOf (step (st 9 5 0 3 [3, 1, 5, 4]))).map (fun t => (t.status, t.cause, t.pc)) =
      some (.faulted, .operandOverrun, 3) := by decide
/-- P4, step 2: a pair at an odd index executes. -/
theorem test_odd_pc_executes : (nextOf (step (st 1 2 7 3 [3, 3, 0, 3, 4, 0, 5, 5]))).map State.pc = some 4 := by decide
/-- T5.11 and T5.12: an odd and an empty program are refused at launch. -/
theorem test_launch_bad_length :
    (launch 0 0 0 [1, 2, 3] State.reset).map State.cause = some .badProgram ∧
      (launch 0 0 0 [] State.reset).map State.status = some .faulted := by decide

/-! ## The fetch word -/

theorem test_withFetchWord_runs_the_word :
    (nextOf (step (State.reset.withFetchWord 8 0x0f))).map (fun t => (t.b, t.pc, t.status)) = some (7, 2, .halted) := by decide
theorem test_withFetchWord_at_odd_pc :
    fetch ((st 0 0 0 3 [0, 1]).withFetchWord 8 0x2c) = .ok (.emit .regA, []) := by decide
theorem test_stop_outside_the_precondition : step (st 0 0 0 2 [0, 1]) = .fault .fetchOutsideProgram := by rfl

/-! ## Witnesses: states and operands that meet the statements' hypotheses, at boundary values -/

theorem witness_ShiftRightIsFloorDivision : 64 ≤ (64 : Word).toNat := by decide

theorem witness_XorAndModAreTakenBitByBit : (3 ≤ 3) ∧ (2 < 3) := by decide

theorem witness_DecodeAndEncodeAgree :
    ([0, 1] : Program).length % 2 = 0 ∧ encodeAll [.shiftA (.literal 1)] = [0, 1] := by decide

theorem witness_AssemblyReadsBack :
    (Instr.emit .regC).wf = true ∧ (Instr.emit .reserved).wf = false ∧
      assemble ⟨.emit, some .letterC⟩ = some (.emit .regC) ∧ Mnemonic.emit ≠ .xorRegisters := by decide

theorem witness_ComboTagsResolveAsListed : (3 : Entry).toNat ≤ 3 := by decide

theorem witness_FetchReadsThePairAtPc_reads : (st 0 0 0 0 [0, 1]).pc + 1 < (st 0 0 0 0 [0, 1]).program.length := by decide
theorem witness_FetchReadsThePairAtPc_overruns :
    (st 0 0 0 1 [0, 1]).status = .running ∧ (st 0 0 0 1 [0, 1]).pc + 1 = (st 0 0 0 1 [0, 1]).program.length := by decide
theorem witness_FetchReadsThePairAtPc_past_end : (st 0 0 0 2 [0, 1]).program.length ≤ (st 0 0 0 2 [0, 1]).pc := by decide
theorem witness_FetchReadsThePairAtPc_arrives :
    ∃ t, step (st 0 0 0 0 [0, 1]) = .next t ∧ t.program.length ≤ t.pc := ⟨_, rfl, by decide⟩
theorem witness_FetchReadsThePairAtPc_even :
    ([0, 1] : Program).length % 2 = 0 ∧ (st 0 0 0 0 [0, 1]).pc % 2 = 0 ∧ (st 0 0 0 0 [0, 1]).pc < ([0, 1] : Program).length := by decide
theorem witness_FetchReadsThePairAtPc_exec : ∃ t, exec (.xorLiteral 1) (st 0 0 0 0 [0, 1]) = .next t := ⟨_, rfl⟩

theorem witness_combo_operand_values :
    resolveCombo (.literal 3) (st 1 64 2 0 []) = some 3 ∧ resolveCombo .regA (st 1 64 2 0 []) = some 1 ∧
      resolveCombo .regB (st 1 64 2 0 []) = some 64 ∧ resolveCombo .regC (st 1 64 2 0 []) = some 2 := by decide
theorem witness_ShiftADividesA :
    resolveCombo .regB (st 1 64 0 0 []) = some 64 ∧ 64 ≤ (64 : Word).toNat ∧ (st 0 64 0 0 []).a = 0 ∧
      resolveCombo .regB (st 0 64 0 0 []) = some 64 := by decide
theorem witness_ShiftBDividesAIntoB :
    resolveCombo .regC (st 1 0 64 0 []) = some 64 ∧ 64 ≤ (64 : Word).toNat ∧ Combo.regC ≠ .regB ∧ Combo.regC ≠ .reserved := by decide
theorem witness_ShiftCDividesAIntoC : resolveCombo .regC (st 1 0 64 0 []) = some 64 ∧ 64 ≤ (64 : Word).toNat := by decide
theorem witness_XorLiteralChangesLowBitsOfB :
    (∃ t, exec (.xorLiteral 0) (st 0 5 0 0 []) = .next t) ∧ 3 ≤ 3 := ⟨⟨_, rfl⟩, by decide⟩
theorem witness_ModBLoadsOperandModEight :
    resolveCombo .regA (st 8 1 0 0 []) = some 8 ∧ Combo.regA ≠ .regB ∧ Combo.regA ≠ .reserved ∧ 3 ≤ 3 := by decide
theorem witness_XorRegistersIgnoresItsOperand : (st 0 5 0 0 []).c = 0 ∧ (st 0 5 5 0 []).b = (st 0 5 5 0 []).c := by decide
theorem witness_JumpIfNonzeroSetsPc_taken :
    Executes (st 1 0 0 0 [3, 0]) (.jumpIfNonzero 0) ∧ (st 1 0 0 0 [3, 0]).a ≠ 0 ∧
      (0 : Entry).toNat = (st 1 0 0 0 [3, 0]).pc := by decide
theorem witness_JumpIfNonzeroSetsPc_notTaken :
    Executes (st 0 0 0 0 [3, 0]) (.jumpIfNonzero 0) ∧ (st 0 0 0 0 [3, 0]).a = 0 := by decide
theorem witness_EmitAppendsOperandModEight : resolveCombo .regA (st 8 0 0 0 []) = some 8 := by decide
/-- For every opcode a state stands at that opcode as the last entry. -/
theorem witness_OverrunsAtLastEntry : ∀ op : Entry,
    (st 0 0 0 1 [0, op]).status = .running ∧ (st 0 0 0 1 [0, op]).pc + 1 = (st 0 0 0 1 [0, op]).program.length ∧
      readEntry (st 0 0 0 1 [0, op]).program (st 0 0 0 1 [0, op]).pc = some op := by decide

theorem witness_InstructionsWriteOnlyTheirDestination :
    (∃ t, exec (.shiftA .regA) (st 1 0 0 0 []) = .next t) ∧ writesReg (.shiftA .regA) .b = false ∧
      writesReg (.shiftA .regA) .a = true ∧ (∀ c, Instr.shiftA .regA ≠ .emit c) ∧ (Instr.shiftA .regA).wf = true ∧
      (Instr.shiftA .reserved).wf = false ∧ ∃ t, exec (.shiftA .reserved) (st 1 0 0 0 []) = .next t :=
  ⟨⟨_, rfl⟩, by decide, by decide, by simp, by decide, by decide, ⟨_, rfl⟩⟩
theorem witness_InstructionsReadOnlyTheirSources :
    readsReg (.modB .regC) .b = false ∧ writesReg (.modB .regC) .b = true ∧ (Instr.modB .regC).wf = true ∧
      readsReg (.modB .regC) .a = false ∧ writesReg (.modB .regC) .a = false ∧
      readsReg (.modB .reserved) .b = false ∧ (Instr.modB .reserved).wf = false ∧
      ∃ t, exec (.modB .regC) (st 0 0 9 0 []) = .next t :=
  ⟨by decide, by decide, by decide, by decide, by decide, by decide, by decide, ⟨_, rfl⟩⟩

theorem witness_StepRunsTheDecodedInstruction :
    (st 5 0 0 0 [5, 4]).status = .running ∧ (Instr.emit .regA).wf = true ∧
      decode (memRead (st 5 0 0 0 [5, 4]).program (st 5 0 0 0 [5, 4]).pc 2) = .ok (.emit .regA, []) := by decide
theorem witness_StepPerformsItsFourLines_overrun :
    (st 0 0 0 1 [0, 1]).status = .running ∧ (st 0 0 0 1 [0, 1]).pc + 1 = (st 0 0 0 1 [0, 1]).program.length := by decide
theorem witness_StepPerformsItsFourLines_reserved :
    (st 0 0 0 0 [5, 7]).pc + 1 < (st 0 0 0 0 [5, 7]).program.length ∧ takesCombo 5 = true ∧ readEntry [5, 7] 1 = some 7 := by decide
theorem witness_StepPerformsItsFourLines_executes :
    takesCombo 5 = true ∧ readEntry [5, 6] 1 ≠ some 7 ∧ takesCombo 4 = false ∧ readEntry [4, 7] 1 = some 7 := by decide
theorem witness_StepPerformsItsFourLines_stopped :
    (stIn .idle .none (st 0 0 0 0 [])).status ≠ .running ∧ (stIn .halted .none (st 0 0 0 2 [5, 0])).status ≠ .running ∧
      (stIn .faulted .badProgram (st 0 0 0 0 [])).status ≠ .running := by decide
theorem witness_StepPerformsItsFourLines_goes_on :
    ∃ t, step (st 0 0 0 0 [5, 0, 5, 0]) = .next t ∧ t.status = .running := ⟨_, rfl, by decide⟩
theorem witness_PcAdvancesByTwoOrJumps :
    Executes (st 0 0 0 0 [5, 0]) (.emit (.literal 0)) ∧ (Instr.emit (.literal 0)).wf = true ∧
      (∀ n, Instr.emit (.literal 0) ≠ .jumpIfNonzero n) ∧ (∃ t, step (st 0 0 0 0 [5, 0]) = .next t) ∧
      (∃ t, step (st 0 0 0 0 [5, 7]) = .next t ∧ t.status = .faulted) ∧
      ∃ t, step (stIn .idle .none (st 0 0 0 0 [])) = .next t :=
  ⟨by decide, by decide, by simp, ⟨_, rfl⟩, ⟨_, rfl, by decide⟩, ⟨_, rfl⟩⟩
theorem witness_RunHaltsAtProgramEnd_at_len :
    Executes (st 0 0 0 0 [5, 0]) (.emit (.literal 0)) ∧
      ∃ t, exec (.emit (.literal 0)) (st 0 0 0 0 [5, 0]) = .next t ∧ t.status = .running ∧ t.pc = 2 := ⟨by decide, _, rfl, by decide⟩
theorem witness_RunHaltsAtProgramEnd_below_len :
    Executes (st 0 0 0 0 [5, 0, 5, 0]) (.emit (.literal 0)) ∧
      ∃ t, exec (.emit (.literal 0)) (st 0 0 0 0 [5, 0, 5, 0]) = .next t ∧ t.status = .running ∧ t.pc < 4 := ⟨by decide, _, rfl, by decide⟩
theorem witness_RunHaltsAtProgramEnd_by_jump :
    ∃ t, step (st 1 0 0 0 [3, 2]) = .next t ∧ t.status = .halted ∧ t.pc = 2 := ⟨_, rfl, by decide⟩
theorem witness_RunHaltsAtProgramEnd_launch :
    ∃ t, launch 0 0 0 [5, 0] State.reset = some t ∧ t.status = .running := ⟨_, rfl, by decide⟩

theorem witness_ReservedOperandFaultsAtExecution :
    (readEntry [7, 7] 0).any takesCombo = true ∧ readEntry [7, 7] 1 = some 7 ∧ (st 0 0 0 0 [7, 7]).cause = .none ∧
      ∃ t, step (st 0 0 0 0 [7, 7]) = .next t ∧ t.cause = .reservedOperand :=
  ⟨by decide, by decide, by decide, _, rfl, by decide⟩
theorem witness_OperandOverrunAtLastEntry :
    (∃ t, step (st 0 0 0 1 [3, 1]) = .next t ∧ t.cause = .operandOverrun) ∧ ([3, 1] : Program).length % 2 = 0 ∧
      (∃ t, step (st 1 0 0 0 [3, 1]) = .next t ∧ t.pc % 2 = 1) ∧ (st 1 0 0 0 [3, 1]).pc % 2 = 0 ∧
      ([3] : Program).length % 2 = 1 ∧ ∃ t, launch 0 0 0 [3] State.reset = some t :=
  ⟨⟨_, rfl, by decide⟩, by decide, ⟨_, rfl, by decide⟩, by decide, by decide, _, rfl⟩
theorem witness_FaultsArePrecise :
    (st 0 0 0 1 [3, 1]).status = .running ∧ (∃ t, step (st 0 0 0 1 [3, 1]) = .next t ∧ t.status = .faulted) ∧
      ∃ t, step (st 0 0 0 0 [6, 7]) = .next t ∧ t.status = .faulted :=
  ⟨by decide, ⟨_, rfl, by decide⟩, _, rfl, by decide⟩
theorem witness_BadLengthIsRefusedAtLaunch :
    State.reset.status ≠ .running ∧ ([] : Program).length = 0 ∧ ([0] : Program).length % 2 = 1 ∧
      65534 < (List.replicate 65535 (0 : Entry)).length ∧ ([5, 7] : Program).length = ([5, 0] : Program).length :=
  ⟨by decide, by decide, by decide, by rw [List.length_replicate]; decide, by decide⟩
theorem witness_WellFormedMeansItsConditions :
    2 * 0 < ([0, 1] : Program).length ∧ readEntry [0, 1] (2 * 0) = some 0 ∧ takesCombo 0 = true ∧
      readEntry [3, 1] (2 * 0) = some 3 ∧ readEntry [3, 1] (2 * 0 + 1) = some 1 ∧ jumpAligned [3, 1] = false ∧
      wellFormed [0, 7] = false ∧ wellFormed [3, 7] = true := by decide

theorem witness_AlignedRunsStayAligned :
    AlignedRun (st 1 0 0 0 [0, 6]) ∧ AlignedRun (stIn .halted .none (st 1 0 0 2 [0, 6])) := by decide
theorem witness_WellFormedProgramsNeverFault :
    hostValidates [0, 1, 3, 0] = true ∧ ∃ t, launch 1 0 0 [0, 1, 3, 0] State.reset = some t := ⟨by decide, _, rfl⟩

theorem witness_StatusIsEnteredAndLeftAsListed :
    (stIn .halted .none (st 0 0 0 2 [5, 0])).status ≠ .running ∧ (∃ t, step (st 0 0 0 0 [5, 0]) = .next t) ∧
      (∃ t, launch 0 0 0 [5, 0] State.reset = some t) ∧ State.reset.status ≠ .running :=
  ⟨by decide, ⟨_, rfl⟩, ⟨_, rfl⟩, by decide⟩
theorem witness_CauseReadsNoneUnlessFaulted :
    State.reset.status ≠ .faulted ∧ (stIn .faulted .badProgram (st 0 0 0 0 [])).status = .faulted := by decide
theorem witness_OutputIsAppendOnly :
    (∃ t, step (st 9 0 0 0 [5, 4]) = .next t) ∧
      (∃ t, exec (.emit .regA) (st 9 0 0 0 [5, 4]) = .next t ∧ t.out ≠ (st 9 0 0 0 [5, 4]).out) ∧
      (∃ t, launch 0 0 0 [5, 4] State.reset = some t) ∧ (stIn .halted .none (st 0 0 0 2 [5, 0])).status = .halted ∧
      (∃ t, run 1 (stIn .halted .none (st 0 0 0 2 [5, 0])) = .next t) ∧ Combo.regA.wf = true ∧
      (stIn .faulted .operandOverrun (st 0 0 0 1 [3, 1])).status = .faulted :=
  ⟨⟨_, rfl⟩, ⟨_, rfl, by decide⟩, ⟨_, rfl⟩, by decide, ⟨_, rfl⟩, by decide, by decide⟩

theorem witness_OutputListsTheEmissions :
    ∃ t u, launch 9 0 0 [5, 4] State.reset = some t ∧ run 1 t = .next u := ⟨_, _, rfl, rfl⟩
theorem witness_ProgramStoreIsConstantInARun :
    (∃ t u, launch 9 0 0 [5, 4] State.reset = some t ∧ run 1 t = .next u) ∧ (st 0 0 0 0 [5, 4]).status = .running ∧
      ∃ t, exec (.emit .regA) (st 0 0 0 0 [5, 4]) = .next t := ⟨⟨_, _, rfl, rfl⟩, by decide, _, rfl⟩
theorem witness_LaunchWritesTheWholeState :
    (st 0 0 0 0 [5, 4]).status = .running ∧ State.reset.status ≠ .running ∧
      (stIn .faulted .badProgram (st 1 2 3 0 [])).status ≠ .running ∧ ([] : Program).length = 0 ∧
      ¬(([5, 4] : Program).length = 0 ∨ ([5, 4] : Program).length % 2 = 1 ∨ 65534 < ([5, 4] : Program).length) := by decide
theorem witness_HostActsOnlyOnAStoppedRun :
    (st 0 0 0 0 [5, 4]).status = .running ∧
      readback (stIn .halted .none (st 1 2 3 2 [5, 4])) = some ⟨1, 2, 3, 2, []⟩ := by decide
theorem witness_SimulateAnswersTheRunsEnd :
    (∃ t u, launch 9 0 0 [5, 4] State.reset = some t ∧ run 1 t = .next u ∧ u.status = .halted) ∧
      (∃ t u, launch 9 0 0 [5, 7] State.reset = some t ∧ run 1 t = .next u ∧ u.status = .faulted) ∧
      State.reset.status ≠ .running :=
  ⟨⟨_, _, rfl, rfl, by decide⟩, ⟨_, _, rfl, rfl, by decide⟩, by decide⟩
/-- T3.7: a run that is RUNNING after every number of steps. -/
theorem witness_SimulateAnswersTheRunsEnd_endless :
    launch 1 0 0 [3, 0] State.reset = some (st 1 0 0 0 [3, 0]) ∧
      ∀ k u, run k (st 1 0 0 0 [3, 0]) = .next u → u.status = .running := by
  refine ⟨rfl, fun k => ?_⟩
  induction k with
  | zero => intro u h; cases h; rfl
  | succ k ih => exact ih
theorem witness_ResetAndLaunchMeetTheInvariant :
    ∃ t, launch 9 0 0 [5, 4] State.reset = some t := ⟨_, rfl⟩
theorem witness_StepKeepsTheInvariant :
    MachineInvariant (st 1 0 0 0 [3, 1]) ∧ (∃ t, step (st 1 0 0 0 [3, 1]) = .next t) ∧
      MachineInvariant (stIn .faulted .operandOverrun (st 1 0 0 1 [3, 1])) ∧
      MachineInvariant (stIn .faulted .reservedOperand (st 1 0 0 0 [5, 7])) ∧
      MachineInvariant (stIn .halted .none (st 1 0 0 7 [3, 7])) :=
  ⟨by decide, ⟨_, rfl⟩, by decide, by decide, by decide⟩
theorem witness_PointerFitsSixteenBits :
    ∃ t u, launch 1 0 0 [3, 7] State.reset = some t ∧ run 1 t = .next u ∧ u.pc = 7 := ⟨_, _, rfl, rfl, by decide⟩
theorem witness_RegisterANeverGrows : ∃ t, run 1 (st 5 0 0 0 [0, 1]) = .next t := ⟨_, rfl⟩
theorem witness_StraightLineProgramsHalt :
    hostValidates [0, 1] = true ∧ straightLine [0, 1] = true ∧ (∃ t, launch 5 0 0 [0, 1] State.reset = some t) ∧
      0 < ([0, 1] : Program).length / 2 := ⟨by decide, by decide, ⟨_, rfl⟩, by decide⟩
theorem witness_RunsEndOnceAIsZero :
    MachineInvariant (st 0 0 0 1 [3, 1]) ∧ (st 0 0 0 1 [3, 1]).status = .running ∧ (st 0 0 0 1 [3, 1]).a = 0 ∧
      (st 0 0 0 1 [3, 1]).pc % 2 = 1 ∧ AlignedRun (st 0 0 0 0 [3, 2]) ∧ (st 0 0 0 0 [3, 2]).a = 0 := by decide

end Sys2Proof.Tests
end

section
/-! PROOFS. Rules about the step, by status and by instruction, that follow from `exec_cases` and `step_cases`: what a stopped
device does, what a running one does, and what a step and an instruction do to `pc`, STATUS and OUT. -/

namespace Sys2Proof.Machine

/-! ### A device that is not RUNNING (spec/60_exceptions.md R97) -/

theorem step_of_not_running {s : State} (h : s.status ≠ .running) : step s = .next s := by
  unfold step
  split
  next hr => exact absurd hr h
  all_goals rfl

theorem run_of_not_running {s : State} (h : s.status ≠ .running) (k : Nat) : run k s = .next s := by
  induction k with
  | zero => rfl
  | succ k ih => rw [run_succ_of_next (step_of_not_running h), ih]

theorem launch_of_not_running (a b c : Word) (p : Program) {s : State} (h : s.status ≠ .running) :
    launch a b c p s = some (launchState a b c p) := by
  unfold launch
  split
  case h_4 hr => exact absurd hr h
  all_goals rfl

theorem launchState_status_cause (a b c : Word) (p : Program) :
    ((launchState a b c p).status = .running ∧ (launchState a b c p).cause = .none) ∨
    ((launchState a b c p).status = .faulted ∧ (launchState a b c p).cause = .badProgram) := by
  unfold launchState
  by_cases hl : acceptableLength p.length = true
  · left; simp [hl]
  · right; simp [hl]

/-! ### The halt check -/

theorem haltCheck_of_not_running {s : State} (h : s.status ≠ .running) : haltCheck s = s := by
  rcases haltCheck_cases s with ⟨hr, -, -⟩ | ⟨-, he⟩
  · exact absurd hr h
  · exact he

theorem haltCheck_status_of_running {s : State} (h : s.status = .running) :
    (haltCheck s).status = if s.program.length ≤ s.pc then .halted else .running := by
  rcases haltCheck_cases s with ⟨-, hl, he⟩ | ⟨hn, he⟩
  · rw [he, if_pos hl]
  · rw [he, if_neg fun hl => hn ⟨h, hl⟩, h]

/-! ### What an instruction does to STATUS and `pc` -/

theorem exec_of_not_wf {i : Instr} {s t : State} (hwf : i.wf = false) (h : exec i s = .next t) :
    t = raiseFault .reservedOperand s := by
  rcases exec_cases h with ⟨-, ht⟩ | ⟨hw, -⟩ | ⟨hw, -⟩ | ⟨hw, -⟩ | ⟨hw, -⟩
  · exact ht
  all_goals exact absurd hw (by simp [hwf])

theorem exec_status_of_wf {i : Instr} {s t : State} (hwf : i.wf = true) (h : exec i s = .next t) :
    t.status = s.status := by
  rcases exec_cases h with ⟨hn, -⟩ | ⟨-, -, -, r, v, rfl⟩ | ⟨-, c, v, -, -, rfl⟩ | ⟨-, n, -, -, rfl⟩ | ⟨-, n, -, -, rfl⟩
  · exact absurd hwf (by simp [hn])
  all_goals simp

theorem exec_pc_of_not_jump {i : Instr} {s t : State} (hwf : i.wf = true) (hj : ∀ n, i ≠ .jumpIfNonzero n)
    (h : exec i s = .next t) : t.pc = s.pc + 2 := by
  rcases exec_cases h with ⟨hn, -⟩ | ⟨-, -, -, r, v, rfl⟩ | ⟨-, c, v, -, -, rfl⟩ | ⟨-, n, rfl, -⟩ | ⟨-, n, rfl, -⟩
  · exact absurd hwf (by simp [hn])
  · simp
  · simp
  all_goals exact absurd rfl (hj n)

theorem exec_jumpIfNonzero_taken {s : State} (n : Entry) (ha : s.a ≠ 0) :
    exec (.jumpIfNonzero n) s = .next (jumpTo n s) :=
  congrArg Host.Outcome.next (if_pos ((aNonzero_iff s).2 ha))

theorem exec_jumpIfNonzero_not_taken {s : State} (n : Entry) (ha : s.a = 0) :
    exec (.jumpIfNonzero n) s = .next (advance s) :=
  congrArg Host.Outcome.next (if_neg fun h => (aNonzero_iff s).1 h ha)

theorem exec_jumpIfNonzero_pc {n : Entry} {s t : State} (h : exec (.jumpIfNonzero n) s = .next t) :
    t.pc = if s.a ≠ 0 then n.toNat else s.pc + 2 := by
  by_cases ha : s.a = 0
  · rw [exec_jumpIfNonzero_not_taken n ha] at h
    cases h
    simp [ha]
  · rw [exec_jumpIfNonzero_taken n ha] at h
    cases h
    rw [if_pos ha, jumpTo_pc]

/-! ### A running device -/

/-- A step that executes an instruction is that instruction's `exec` and the halt check. -/
theorem step_of_executes {s t : State} {i : Instr} (he : Executes s i) (h : step s = .next t) :
    ∃ u, exec i s = .next u ∧ t = haltCheck u := by
  obtain ⟨hr, hf⟩ := he
  rcases step_cases h with ⟨hn, -⟩ | ⟨-, hlast, -⟩ | ⟨-, -, j, u, hfj, hu, rfl⟩
  · exact absurd hr hn
  · rw [fetch_last hlast] at hf; cases hf
  · rw [hf] at hfj; cases hfj; exact ⟨u, hu, rfl⟩

/-- All that a step of a running device can do: raise one of the two faults of execution and nothing else, or complete a
well-formed instruction, still RUNNING, and then check for the halt. -/
theorem step_running_cases {s t : State} (hr : s.status = .running) (h : step s = .next t) :
    (∃ k, (k = .operandOverrun ∨ k = .reservedOperand) ∧ t = raiseFault k s) ∨
    (∃ i u, Executes s i ∧ i.wf = true ∧ exec i s = .next u ∧ u.status = .running ∧ t = haltCheck u) := by
  rcases step_cases h with ⟨hn, -⟩ | ⟨-, -, ht⟩ | ⟨-, -, i, u, hf, hu, ht⟩
  · exact absurd hr hn
  · exact .inl ⟨_, .inl rfl, ht⟩
  · cases hwf : i.wf with
    | false =>
      have hraise := exec_of_not_wf hwf hu
      have hstay : haltCheck u = u := haltCheck_of_not_running (by simp [hraise])
      exact .inl ⟨_, .inr rfl, by rw [ht, hstay, hraise]⟩
    | true =>
      have hur : u.status = .running := (exec_status_of_wf hwf hu).trans hr
      exact .inr ⟨i, u, ⟨hr, hf⟩, hwf, hu, hur, ht⟩

/-- The status after a step of a running device, and where `pc` then stands (spec/10_state.md R19). -/
theorem step_running_status_cases {s t : State} (hr : s.status = .running) (h : step s = .next t) :
    (t.status = .faulted ∧ t.pc = s.pc) ∨ (t.status = .halted ∧ t.program.length ≤ t.pc) ∨
    (t.status = .running ∧ t.pc < t.program.length) := by
  rcases step_running_cases hr h with ⟨k, -, rfl⟩ | ⟨i, u, -, -, -, hur, rfl⟩
  · exact .inl ⟨rfl, rfl⟩
  · have hst := haltCheck_status_of_running hur
    by_cases hl : u.program.length ≤ u.pc
    · exact .inr (.inl ⟨by simp [hst, hl], by simpa using hl⟩)
    · exact .inr (.inr ⟨by simp [hst, hl], by simpa using hl⟩)

/-! ### OUT: what an instruction and a step append (spec/10_state.md R18) -/

theorem emittedBy_of_not_emit {i : Instr} (h : ∀ c, i ≠ .emit c) (s : State) : emittedBy i s = none := by
  cases i with
  | emit c => exact absurd rfl (h c)
  | _ => rfl

theorem emittedBy_of_not_wf {i : Instr} (h : i.wf = false) (s : State) : emittedBy i s = none := by
  cases i with
  | emit c =>
    have hc : c.wf = false := h
    have hnone : resolveCombo c s = none := Option.not_isSome_iff_eq_none.1 (by simp [resolveCombo_isSome_iff, hc])
    simp [emittedBy, hnone]
  | _ => rfl

theorem exec_out {i : Instr} {s t : State} (h : exec i s = .next t) : t.out = s.out ++ (emittedBy i s).toList := by
  rcases exec_cases h with ⟨hwf, rfl⟩ | ⟨-, -, he, r, v, rfl⟩ | ⟨-, c, v, rfl, hv, rfl⟩ | ⟨-, n, rfl, -, rfl⟩ | ⟨-, n, rfl, -, rfl⟩
  · simp [emittedBy_of_not_wf hwf]
  · simp [emittedBy_of_not_emit he]
  · simp [emittedBy, hv]
  all_goals simp [emittedBy]

theorem exec_emit_of_wf {c : Combo} (s : State) (h : c.wf = true) :
    ∃ v, exec (.emit c) s = .next (advance (appendOut v s)) := by
  obtain ⟨x, hx⟩ := Option.isSome_iff_exists.1 ((resolveCombo_isSome_iff c s).trans h)
  exact ⟨mod8 x, by simp [exec, execEmit, withCombo, hx]⟩

theorem emitted_of_not_running {s : State} (h : s.status ≠ .running) : emitted s = none := by
  unfold emitted
  split
  next hr => exact absurd hr h
  all_goals rfl

theorem emitted_of_executes {s : State} {i : Instr} (h : Executes s i) : emitted s = emittedBy i s := by
  obtain ⟨hr, hf⟩ := h
  simp [emitted, hr, hf]

theorem emitted_at_last_entry {s : State} (h : s.pc + 1 = s.program.length) : emitted s = none := by
  by_cases hr : s.status = .running
  · simp [emitted, hr, fetch_last h]
  · exact emitted_of_not_running hr

theorem step_out {s t : State} (h : step s = .next t) : t.out = s.out ++ (emitted s).toList := by
  rcases step_cases h with ⟨hn, rfl⟩ | ⟨-, hlast, rfl⟩ | ⟨hr, -, i, u, hf, hu, rfl⟩
  · simp [emitted_of_not_running hn]
  · simp [emitted_at_last_entry hlast]
  · rw [haltCheck_out, emitted_of_executes ⟨hr, hf⟩, exec_out hu]

/-! ### No instruction reads OUT -/

theorem resolveCombo_replace_out (t : Combo) (s : State) (o : List Entry) :
    resolveCombo t { s with out := o } = resolveCombo t s := by
  cases t <;> rfl

/-- An instruction with a combo operand does to `s'` what it does to `s`, carried over by `φ`, when the operand has the same value
in both and `φ` carries over the effect where there is a value and the fault where there is none. -/
theorem withCombo_transport {t : Combo} {s s' u : State} {f f' : Word → State} (φ : State → State)
    (hres : resolveCombo t s' = resolveCombo t s) (heff : ∀ v, resolveCombo t s = some v → f' v = φ (f v))
    (hfault : resolveCombo t s = none → raiseFault .reservedOperand s' = φ (raiseFault .reservedOperand s))
    (h : withCombo t s f = .next u) : withCombo t s' f' = .next (φ u) := by
  unfold withCombo at h ⊢
  rw [hres]
  cases hv : resolveCombo t s with
  | some v => rw [hv] at h; cases h; exact congrArg _ (heff v hv)
  | none => rw [hv] at h; cases h; exact congrArg _ (hfault hv)

theorem withCombo_setReg_replace_out {t : Combo} {s u : State} (r : Reg) (g : Word → Word) (o : List Entry)
    (h : withCombo t s (fun v => advance (setReg r (g v) s)) = .next u) :
    withCombo t { s with out := o } (fun v => advance (setReg r (g v) { s with out := o })) =
      .next { u with out := o } :=
  withCombo_transport (fun u => { u with out := o }) (resolveCombo_replace_out t s o)
    (fun _ _ => by cases r <;> rfl) (fun _ => rfl) h

theorem exec_replace_out_of_not_emit {i : Instr} {s t : State} (hi : ∀ c, i ≠ .emit c) (o : List Entry)
    (h : exec i s = .next t) : exec i { s with out := o } = .next { t with out := o } := by
  cases i with
  | emit c => exact absurd rfl (hi c)
  | shiftA c => exact withCombo_setReg_replace_out .a (shiftRight s.a) o h
  | xorLiteral n => cases h; rfl
  | modB c => exact withCombo_setReg_replace_out .b (fun v => zext (mod8 v)) o h
  | jumpIfNonzero n =>
    by_cases ha : s.a = 0
    · rw [exec_jumpIfNonzero_not_taken n ha] at h
      cases h
      exact exec_jumpIfNonzero_not_taken n ha
    · rw [exec_jumpIfNonzero_taken n ha] at h
      cases h
      exact exec_jumpIfNonzero_taken n ha
  | xorRegisters n => cases h; rfl
  | shiftB c => exact withCombo_setReg_replace_out .b (shiftRight s.a) o h
  | shiftC c => exact withCombo_setReg_replace_out .c (shiftRight s.a) o h

theorem exec_emit_replace_out {c : Combo} {s t : State} (o : List Entry) (h : exec (.emit c) s = .next t) :
    exec (.emit c) { s with out := o } = .next { t with out := o ++ (emittedBy (.emit c) s).toList } := by
  refine withCombo_transport (fun u => { u with out := o ++ (emittedBy (.emit c) s).toList })
    (resolveCombo_replace_out c s o) ?_ ?_ h
  · intro v hv; simp [emittedBy, hv, advance, appendOut]
  · intro hv; simp [emittedBy, hv, raiseFault]

/-- With another OUT an instruction appends the same value to it and does the same otherwise. -/
theorem exec_replace_out {i : Instr} {s t : State} (o : List Entry) (h : exec i s = .next t) :
    exec i { s with out := o } = .next { t with out := o ++ (emittedBy i s).toList } := by
  by_cases hi : ∃ c, i = .emit c
  · obtain ⟨c, rfl⟩ := hi
    exact exec_emit_replace_out o h
  · have hne := not_exists.1 hi
    rw [emittedBy_of_not_emit hne, Option.toList_none, List.append_nil]
    exact exec_replace_out_of_not_emit hne o h

end Sys2Proof.Machine
end

section
/-! PROOFS. The obligations of spec/10_state.md: `pc` (R15), STATUS (R19), OUT (R18) and CAUSE (R20). -/

namespace Sys2Proof.Machine

/-! ### `pc` -/

theorem step_pc_of_not_jump {s t : State} {i : Instr} (he : Executes s i) (hwf : i.wf = true)
    (hj : ∀ n, i ≠ .jumpIfNonzero n) (h : step s = .next t) : t.pc = s.pc + 2 := by
  obtain ⟨u, hu, rfl⟩ := step_of_executes he h
  rw [haltCheck_pc, exec_pc_of_not_jump hwf hj hu]

theorem step_pc_of_jumpIfNonzero {s t : State} {n : Entry} (he : Executes s (.jumpIfNonzero n))
    (h : step s = .next t) : t.pc = if s.a ≠ 0 then n.toNat else s.pc + 2 := by
  obtain ⟨u, hu, rfl⟩ := step_of_executes he h
  rw [haltCheck_pc, exec_jumpIfNonzero_pc hu]

theorem step_pc_of_faulted {s t : State} (hr : s.status = .running) (h : step s = .next t)
    (hf : t.status = .faulted) : t.pc = s.pc := by
  rcases step_running_status_cases hr h with ⟨-, hpc⟩ | ⟨hh, -⟩ | ⟨hrun, -⟩
  · exact hpc
  · exact absurd hf (by simp [hh])
  · exact absurd hf (by simp [hrun])

/-- Settles O21: each clause through the inversion of the step, by what it executes or the status it leaves. -/
theorem pcAdvancesByTwoOrJumps : Obligations.PcAdvancesByTwoOrJumps := by
  refine ⟨fun s t i he hwf hj h => step_pc_of_not_jump he hwf hj h, fun s t n he h => step_pc_of_jumpIfNonzero he h,
    fun s t hr h hf => step_pc_of_faulted hr h hf, fun s t hn h => ?_⟩
  rw [step_of_not_running hn] at h
  cases h
  rfl

/-! ### STATUS -/

theorem statusCode_surjective (code : BitVec 2) : ∃ st, statusCode st = code := by
  have hall : ∀ code : BitVec 2,
      code = statusCode .idle ∨ code = statusCode .running ∨ code = statusCode .halted ∨ code = statusCode .faulted := by
    decide
  rcases hall code with h | h | h | h <;> exact ⟨_, h.symm⟩

/-- A running device halts at the end of a step exactly where it has not faulted and `pc` is at or past LEN. -/
theorem step_halted_iff {s t : State} (hr : s.status = .running) (h : step s = .next t) :
    t.status = .halted ↔ t.status ≠ .faulted ∧ t.program.length ≤ t.pc := by
  rcases step_running_status_cases hr h with ⟨hst, -⟩ | ⟨hst, hl⟩ | ⟨hst, hl⟩
  · simp [hst]
  · simp [hst, hl]
  · simp [hst, Nat.not_le.2 hl]

theorem launch_status {a b c : Word} {p : Program} {s t : State} (h : launch a b c p s = some t) :
    t.status = .running ∨ (t.status = .faulted ∧ t.cause = .badProgram) := by
  obtain ⟨-, rfl⟩ := launch_cases h
  exact (launchState_status_cause a b c p).imp_left And.left

/-- Settles O30: the clauses on a running device from `step_running_status_cases`, those on a stopped one from the run and launch rules. -/
theorem statusIsEnteredAndLeftAsListed : Obligations.StatusIsEnteredAndLeftAsListed := by
  refine ⟨⟨rfl, rfl, rfl, rfl⟩, fun _ => rfl, statusCode_surjective, fun s hn k => run_of_not_running hn k,
    fun s t hr h => ⟨step_halted_iff hr h, ?_⟩, fun a b c p s t h => ⟨(launch_cases h).1, launch_status h⟩,
    fun a b c p s hn => ⟨_, launch_of_not_running a b c p hn⟩, coldReset_status⟩
  rcases step_running_status_cases hr h with ⟨hst, -⟩ | ⟨hst, -⟩ | ⟨hst, -⟩
  · exact .inr (.inr hst)
  · exact .inr (.inl hst)
  · exact .inl hst

/-! ### OUT -/

/-- Only `emit` changes OUT, by one value at the end. -/
theorem exec_out_changed {i : Instr} {s t : State} (h : exec i s = .next t) (hne : t.out ≠ s.out) :
    ∃ (c : Combo) (v : Entry), i = .emit c ∧ t.out = s.out ++ [v] := by
  have hout := exec_out h
  cases hem : emittedBy i s with
  | none => exact absurd (by simpa [hem] using hout) hne
  | some v =>
    by_cases hi : ∃ c, i = .emit c
    · obtain ⟨c, rfl⟩ := hi
      exact ⟨c, v, rfl, by simpa [hem] using hout⟩
    · rw [emittedBy_of_not_emit (not_exists.1 hi)] at hem
      cases hem

theorem readback_out {s : State} (h : s.status = .halted ∨ s.status = .faulted) :
    (readback s).map Readback.out = some s.out := by
  rcases h with h | h <;> simp [readback, h]

/-- Settles O32: `emittedBy` and `emitted` name what an instruction and a step append, and `exec_replace_out` that OUT is not read. -/
theorem outputIsAppendOnly : Obligations.OutputIsAppendOnly := by
  refine ⟨fun s t h => step_out h, fun i s t h hne => exec_out_changed h hne, fun a b c p s t h => ?launched,
    fun s hs k t h => ?halted, fun i o s t h => ⟨_, exec_out h, exec_replace_out o h⟩,
    fun c s hwf => exec_emit_of_wf s hwf, fun s hs => readback_out hs⟩
  case launched =>
    obtain ⟨-, rfl⟩ := launch_cases h
    exact launchState_out a b c p
  case halted =>
    rw [run_of_not_running (by simp [hs])] at h
    cases h
    rfl

/-! ### CAUSE -/

theorem readCause_of_not_faulted {s : State} (h : s.status ≠ .faulted) : readCause s = 0b00 := by
  unfold readCause
  split
  next hf => exact absurd hf h
  all_goals rfl

theorem readCause_of_faulted {s : State} (h : s.status = .faulted) : readCause s = causeCode s.cause := by
  simp [readCause, h]

/-- Settles O31, by the status that `readCause` distinguishes. -/
theorem causeReadsNoneUnlessFaulted : Obligations.CauseReadsNoneUnlessFaulted :=
  ⟨⟨rfl, rfl, rfl, rfl⟩, fun _ => readCause_of_not_faulted, fun _ => readCause_of_faulted⟩

end Sys2Proof.Machine
end

section
/-! PROOFS. The program store as an instruction, a step and a run see it: none of them writes it, and only the fetch reads it. -/

namespace Sys2Proof.Machine

/-! ### Properties that every step keeps -/

/-- A run of `k + 1` steps that answers a state made a first step and then a run of `k`. -/
theorem run_succ_next {k : Nat} {s t : State} (h : run (k + 1) s = .next t) :
    ∃ u, step s = .next u ∧ run k u = .next t := by
  rw [run_succ] at h
  cases hs : step s with
  | next u => rw [hs] at h; exact ⟨u, rfl, h⟩
  | fault f => rw [hs] at h; cases h
  | refused r => rw [hs] at h; cases h

/-- What holds at the start of a run and is kept by every step holds after any number of steps. -/
theorem run_keeps {P : State → Prop} (hstep : ∀ {s t : State}, step s = .next t → P s → P t) {k : Nat} {s t : State}
    (h : run k s = .next t) (hs : P s) : P t := by
  induction k generalizing s with
  | zero => cases h; exact hs
  | succ k ih =>
    obtain ⟨u, hu, hrun⟩ := run_succ_next h
    exact ih hrun (hstep hu hs)

/-! ### No instruction, step or run writes the store (spec/20_memory.md R39) -/

theorem exec_program {i : Instr} {s t : State} (h : exec i s = .next t) : t.program = s.program := by
  rcases exec_cases h with ⟨-, rfl⟩ | ⟨-, -, -, r, v, rfl⟩ | ⟨-, c, v, -, -, rfl⟩ | ⟨-, n, -, -, rfl⟩ | ⟨-, n, -, -, rfl⟩
  all_goals simp

theorem step_program {s t : State} (h : step s = .next t) : t.program = s.program := by
  rcases step_cases h with ⟨-, rfl⟩ | ⟨-, -, rfl⟩ | ⟨-, -, i, u, -, hu, rfl⟩
  · rfl
  · rfl
  · rw [haltCheck_program, exec_program hu]

theorem run_program {k : Nat} {s t : State} (h : run k s = .next t) : t.program = s.program :=
  run_keeps (P := fun u => u.program = s.program) (fun hu hs => (step_program hu).trans hs) h rfl

theorem launch_of_running (a b c : Word) (p : Program) {s : State} (h : s.status = .running) :
    launch a b c p s = none := by
  simp [launch, h]

/-! ### No instruction reads the store (spec/20_memory.md R32) -/

theorem resolveCombo_replace_program (t : Combo) (s : State) (q : Program) :
    resolveCombo t { s with program := q } = resolveCombo t s := by
  cases t <;> rfl

/-- An instruction with a combo operand whose effect does not read the store does the same with another store. -/
theorem withCombo_replace_program {t : Combo} {s u : State} {f f' : Word → State} (q : Program)
    (heff : ∀ v, f' v = { f v with program := q }) (h : withCombo t s f = .next u) :
    withCombo t { s with program := q } f' = .next { u with program := q } :=
  withCombo_transport (fun u => { u with program := q }) (resolveCombo_replace_program t s q) (fun v _ => heff v)
    (fun _ => rfl) h

theorem exec_replace_program {i : Instr} {s t : State} (q : Program) (h : exec i s = .next t) :
    exec i { s with program := q } = .next { t with program := q } := by
  cases i with
  | shiftA c => exact withCombo_replace_program q (fun _ => rfl) h
  | xorLiteral n => cases h; rfl
  | modB c => exact withCombo_replace_program q (fun _ => rfl) h
  | jumpIfNonzero n =>
    cases h
    exact congrArg Host.Outcome.next (apply_ite (fun u : State => { u with program := q }) _ (jumpTo n s) (advance s)).symm
  | xorRegisters n => cases h; rfl
  | emit c => exact withCombo_replace_program q (fun _ => rfl) h
  | shiftB c => exact withCombo_replace_program q (fun _ => rfl) h
  | shiftC c => exact withCombo_replace_program q (fun _ => rfl) h

end Sys2Proof.Machine
end

section
/-! PROOFS. The obligations of spec/20_memory.md: the fetch (R32) and the constant program store (R39). -/

namespace Sys2Proof.Machine

/-! ### The fetch -/

theorem step_at_last_entry {s : State} (hr : s.status = .running) (h : s.pc + 1 = s.program.length) :
    step s = .next (raiseFault .operandOverrun s) := by
  simp [step, hr, fetch_last h]

/-- Past the end of the program a running device has no step (spec/30_encoding.md R53). -/
theorem pc_lt_of_step {s t : State} (hr : s.status = .running) (h : step s = .next t) :
    s.pc < s.program.length := by
  rcases step_cases h with ⟨hn, -⟩ | ⟨-, hlast, -⟩ | ⟨-, hin, -⟩
  · exact absurd hr hn
  · omega
  · omega

/-- A step that arrives at or past the end has halted the run: a fault would have left `pc` inside the program. -/
theorem step_halted_of_past_end {s t : State} (hr : s.status = .running) (h : step s = .next t)
    (hl : t.program.length ≤ t.pc) : t.status = .halted := by
  rcases step_running_status_cases hr h with ⟨-, hpc⟩ | ⟨hh, -⟩ | ⟨-, hin⟩
  · rw [step_program h, hpc] at hl
    exact absurd (pc_lt_of_step hr h) (Nat.not_lt.2 hl)
  · exact hh
  · exact absurd hin (Nat.not_lt.2 hl)

/-- Settles O8: the fetch clauses from the laws of `memRead` and `fetch`, the halt from `step_halted_of_past_end`, and the
independence of the store from `exec_replace_program`. -/
theorem fetchReadsThePairAtPc : Obligations.FetchReadsThePairAtPc := by
  refine ⟨fun s h => ⟨memRead_two h, fetch_inside h⟩, fun s hr h => step_at_last_entry hr h, fun s h => memRead_past h,
    fun s t hr h hl => ?arrives, fun s hlen hpc hlt => ?even, fun i q s t h => exec_replace_program q h⟩
  case arrives =>
    have hh := step_halted_of_past_end hr h hl
    exact ⟨hh, step_of_not_running (by simp [hh])⟩
  case even => omega

/-! ### The program store -/

/-- Settles O34: a launch puts `p` into the store and `run_program` keeps it there. -/
theorem programStoreIsConstantInARun : Obligations.ProgramStoreIsConstantInARun := by
  refine ⟨fun a b c p s t u n hl hrun => ?_, fun i s t h => exec_program h, fun a b c p s hr => launch_of_running a b c p hr⟩
  obtain ⟨-, rfl⟩ := launch_cases hl
  have hp : u.program = p := (run_program hrun).trans (launchState_program a b c p)
  exact ⟨hp, fun k => by rw [hp], by rw [hp]⟩

end Sys2Proof.Machine
end

section
/-! PROOFS. The decoder by tag and by opcode, and the obligations of spec/30_encoding.md: the combo operand (R49, R50) and the
four lines of the step (R53). -/

namespace Sys2Proof.Machine

/-! ### Combo operands -/

/-- Tags 0 to 3 are literals: the tag's low two bits. -/
theorem decodeCombo_literal {t : Entry} (h : t.toNat ≤ 3) : decodeCombo t = .literal (t.setWidth 2) := by
  revert t
  decide

theorem resolveCombo_decodeCombo_literal {t : Entry} (h : t.toNat ≤ 3) (s : State) :
    resolveCombo (decodeCombo t) s = some (BitVec.ofNat 64 t.toNat) := by
  have hlow : (t.setWidth 2).setWidth 64 = BitVec.ofNat 64 t.toNat := by
    apply BitVec.eq_of_toNat_eq
    simp only [BitVec.toNat_setWidth, BitVec.toNat_ofNat]
    omega
  rw [decodeCombo_literal h, ← hlow]
  rfl

/-- Settles O7: tags 0 to 3 by `resolveCombo_decodeCombo_literal`; each of the other four is one branch of the decoder. -/
theorem comboTagsResolveAsListed : Obligations.ComboTagsResolveAsListed := fun s =>
  ⟨fun _ h => resolveCombo_decodeCombo_literal h s, rfl, rfl, rfl, rfl, fun _ => rfl⟩

/-! ### Which pairs are legal (spec/30_encoding.md R52) -/

/-- Tag 7 is the one reserved tag. -/
theorem decodeCombo_wf_iff (t : Entry) : (decodeCombo t).wf = true ↔ t ≠ 7 := by
  revert t
  decide

/-- The operand entry matters to legality under a combo opcode only. -/
theorem decodePair_wf (opcode operand : Entry) :
    (decodePair opcode operand).wf = (!takesCombo opcode || (decodeCombo operand).wf) := by
  obtain ⟨o⟩ := opcode
  fin_cases o <;> rfl

theorem decodePair_wf_iff (opcode operand : Entry) :
    (decodePair opcode operand).wf = true ↔ takesCombo opcode = false ∨ operand ≠ 7 := by
  rw [decodePair_wf, Bool.or_eq_true, Bool.not_eq_true', decodeCombo_wf_iff]

/-! ### The step of a running device, from what it fetches -/

theorem executes_pair {s : State} (hr : s.status = .running) (h : s.pc + 1 < s.program.length) :
    Executes s (decodePair (s.program[s.pc]'(Nat.lt_of_succ_lt h)) s.program[s.pc + 1]) :=
  ⟨hr, fetch_inside h⟩

/-- Lines 3 and 4 of the step: the fetched instruction's `exec`, then the halt check. -/
theorem step_eq_haltCheck_exec {s t : State} {i : Instr} (he : Executes s i) (h : exec i s = .next t) :
    step s = .next (haltCheck t) := by
  obtain ⟨hr, hf⟩ := he
  simp [step, hr, hf, h]

/-- Line 2 of the step: a reserved operand raises its fault, and line 4 is not performed. -/
theorem step_of_executes_not_wf {s : State} {i : Instr} (he : Executes s i) (hwf : i.wf = false) :
    step s = .next (raiseFault .reservedOperand s) := by
  obtain ⟨t, ht⟩ := exec_next i s
  have hraise := exec_of_not_wf hwf ht
  have hstay : haltCheck t = t := haltCheck_of_not_running (by simp [hraise])
  rw [step_eq_haltCheck_exec he ht, hstay, hraise]

theorem haltCheck_of_running {s : State} (h : s.status = .running) :
    haltCheck s = if s.program.length ≤ s.pc then { s with status := .halted } else s := by
  simp [haltCheck, h]

/-- A legal instruction completes in RUNNING; the halt check then compares the new `pc` with the LEN of the state before. -/
theorem step_of_executes_wf {s : State} {i : Instr} (he : Executes s i) (hwf : i.wf = true) :
    ∃ t, exec i s = .next t ∧ t.status = .running ∧
      step s = .next (if s.program.length ≤ t.pc then { t with status := .halted } else t) := by
  obtain ⟨t, ht⟩ := exec_next i s
  have hrun : t.status = .running := (exec_status_of_wf hwf ht).trans he.1
  refine ⟨t, ht, hrun, ?_⟩
  rw [step_eq_haltCheck_exec he ht, haltCheck_of_running hrun, exec_program ht]

/-- The invariant of RUNNING: a step that leaves the run in progress leaves `pc` inside the program. -/
theorem step_pc_lt_of_running {s t : State} (h : step s = .next t) (hs : s.status = .running) (ht : t.status = .running) :
    t.pc < t.program.length := by
  rcases step_running_status_cases hs h with ⟨hf, -⟩ | ⟨hh, -⟩ | ⟨-, hlt⟩
  · exact absurd ht (by simp [hf])
  · exact absurd ht (by simp [hh])
  · exact hlt

/-- Settles O20: the overrun from the fetch, the reserved and the legal pair told apart by `decodePair_wf_iff`, the rest from the
step's rules by status. -/
theorem stepPerformsItsFourLines : Obligations.StepPerformsItsFourLines := by
  refine ⟨fun s hr h => step_at_last_entry hr h, fun s h hr hcombo h7 => ?reserved, fun s h hr hlegal => ?executes,
    fun s hn => step_of_not_running hn, fun s t h hs ht => step_pc_lt_of_running h hs ht⟩
  case reserved =>
    refine step_of_executes_not_wf (executes_pair hr h) (Bool.eq_false_iff.2 fun hwf => ?_)
    rcases (decodePair_wf_iff _ _).1 hwf with hnot | hne
    · exact absurd hcombo (by simp [hnot])
    · exact hne h7
  case executes =>
    exact step_of_executes_wf (executes_pair hr h) ((decodePair_wf_iff _ _).2 hlegal)

end Sys2Proof.Machine
end

section
/-! PROOFS. The arithmetic of spec/40_shift.md: the laws of the floor division by a power of two, of the exclusive or and of the
remainder modulo 8, and the obligations of R60, R66 and R67. -/

namespace Sys2Proof.Machine

/-! ### The shift (spec/40_shift.md R60) -/

/-- The cut at a count of 64 is the one a logical shift of 64 bits makes by itself. -/
theorem shiftRight_eq_ushiftRight (a n : Word) : shiftRight a n = a >>> n.toNat := by
  unfold shiftRight
  split
  next h => exact (BitVec.ushiftRight_eq_zero h).symm
  next => rfl

theorem shiftRight_toNat (a n : Word) : (shiftRight a n).toNat = a.toNat / 2 ^ n.toNat := by
  rw [shiftRight_eq_ushiftRight, BitVec.toNat_ushiftRight, Nat.shiftRight_eq_div_pow]

theorem shiftRight_le (a n : Word) : shiftRight a n ≤ a := by
  rw [BitVec.le_def, shiftRight_toNat]
  exact Nat.div_le_self _ _

theorem shiftRight_of_le {n : Word} (a : Word) (h : 64 ≤ n.toNat) : shiftRight a n = 0 := if_pos h

@[simp] theorem shiftRight_zero (a : Word) : shiftRight a 0 = a := by
  rw [shiftRight_eq_ushiftRight]
  exact BitVec.ushiftRight_zero a

@[simp] theorem zero_shiftRight (n : Word) : shiftRight 0 n = 0 := by
  rw [shiftRight_eq_ushiftRight]
  exact BitVec.zero_ushiftRight

/-- A count equal to the dividend leaves nothing, since `a < 2 ^ a`. -/
@[simp] theorem shiftRight_self (a : Word) : shiftRight a a = 0 := by
  apply BitVec.eq_of_toNat_eq
  rw [shiftRight_toNat]
  exact Nat.div_eq_of_lt Nat.lt_two_pow_self

theorem shiftRight_getLsbD (a n : Word) (i : Nat) : (shiftRight a n).getLsbD i = a.getLsbD (n.toNat + i) := by
  rw [shiftRight_eq_ushiftRight, BitVec.getLsbD_ushiftRight]

/-- Settles O1: every clause is a law of `shiftRight`, which `shiftRight_eq_ushiftRight` identifies with the logical shift. -/
theorem shiftRightIsFloorDivision : Obligations.ShiftRightIsFloorDivision := fun a n =>
  ⟨shiftRight_toNat a n, shiftRight_le a n, shiftRight_of_le a, shiftRight_zero a, shiftRight_getLsbD a n⟩

/-! ### The exclusive or and the remainder modulo 8 (spec/40_shift.md R66, R67) -/

theorem xorWord_getLsbD (x y : Word) (i : Nat) : (xorWord x y).getLsbD i = (x.getLsbD i ^^ y.getLsbD i) :=
  BitVec.getLsbD_xor

@[simp] theorem zext_toNat (n : Entry) : (zext n).toNat = n.toNat :=
  BitVec.toNat_setWidth_of_le (by decide)

/-- An entry has three bits: its extension is zero above them. -/
theorem zext_getLsbD_of_le {i : Nat} (n : Entry) (h : 3 ≤ i) : (zext n).getLsbD i = false := by
  rw [zext, BitVec.getLsbD_setWidth, BitVec.getLsbD_of_ge n i h, Bool.and_false]

theorem xorWord_zext_getLsbD_of_le {i : Nat} (x : Word) (n : Entry) (h : 3 ≤ i) :
    (xorWord x (zext n)).getLsbD i = x.getLsbD i := by
  rw [xorWord_getLsbD, zext_getLsbD_of_le n h, Bool.xor_false]

@[simp] theorem mod8_toNat (v : Word) : (mod8 v).toNat = v.toNat % 8 := by
  simp [mod8]

theorem mod8_getLsbD_of_lt {i : Nat} (v : Word) (h : i < 3) : (mod8 v).getLsbD i = v.getLsbD i := by
  simp [mod8, h]

/-- A literal combo operand, 0 to 3, is its own remainder. -/
theorem mod8_setWidth_toNat (n : BitVec 2) : (mod8 (n.setWidth 64)).toNat = n.toNat := by
  have hn : n.toNat < 4 := n.isLt
  rw [mod8_toNat, BitVec.toNat_setWidth_of_le (by decide), Nat.mod_eq_of_lt (by omega)]

/-- Settles O2: the bits and the values by the laws of `xorWord`, `zext` and `mod8`; the rules' worked values by computation. -/
theorem xorAndModAreTakenBitByBit : Obligations.XorAndModAreTakenBitByBit := by
  refine ⟨xorWord_getLsbD, fun x n i h => xorWord_zext_getLsbD_of_le x n h, fun v => ⟨mod8_toNat v, ?zext, ?bits⟩,
    fun n s => congrArg some (mod8_setWidth_toNat n), by decide, by decide, by decide, by decide⟩
  case zext => rw [zext_toNat, mod8_toNat]
  case bits => exact fun i h => mod8_getLsbD_of_lt v h

end Sys2Proof.Machine
end

section
/-! PROOFS. The shift instructions of spec/40_shift.md: what `shiftInto` does with a value for its operand and without one, and
the obligations of R61, R62 and R63. -/

namespace Sys2Proof.Machine

/-! ### Encoding, overrun and operand, for any instruction -/

/-- The two entries of an instruction decode to it. -/
theorem decodePair_entries (i : Instr) : decodePair (opcodeEntry i) (operandEntry i) = i := by
  cases i with
  | shiftA t => exact congrArg Instr.shiftA (decodeCombo_encodeCombo t)
  | xorLiteral n => rfl
  | modB t => exact congrArg Instr.modB (decodeCombo_encodeCombo t)
  | jumpIfNonzero n => rfl
  | xorRegisters n => rfl
  | emit t => exact congrArg Instr.emit (decodeCombo_encodeCombo t)
  | shiftB t => exact congrArg Instr.shiftB (decodeCombo_encodeCombo t)
  | shiftC t => exact congrArg Instr.shiftC (decodeCombo_encodeCombo t)

theorem decode_encode (i : Instr) : decode (encode i) = .ok (i, []) :=
  congrArg (fun j => Except.ok (j, [])) (decodePair_entries i)

/-- The overrun does not depend on the opcode (spec/20_memory.md R32). -/
theorem overrunsAtLastEntry (opcode : Entry) : OverrunsAtLastEntry opcode :=
  fun _ hr hlast _ => step_at_last_entry hr hlast

@[simp] theorem resolveCombo_literal (n : BitVec 2) (s : State) : resolveCombo (.literal n) s = some (n.setWidth 64) := rfl
@[simp] theorem resolveCombo_regA (s : State) : resolveCombo .regA s = some s.a := rfl
@[simp] theorem resolveCombo_regB (s : State) : resolveCombo .regB s = some s.b := rfl
@[simp] theorem resolveCombo_regC (s : State) : resolveCombo .regC s = some s.c := rfl

/-- A value of 4 or more comes from a register: the literal tags stop at 3 (spec/30_encoding.md R49). -/
theorem register_of_resolveCombo_ge_four {t : Combo} {s : State} {n : Word} (h : resolveCombo t s = some n)
    (hn : 4 ≤ n.toNat) : t = .regA ∨ t = .regB ∨ t = .regC := by
  cases t with
  | literal m =>
    cases h
    have hm : m.toNat < 4 := m.isLt
    rw [BitVec.toNat_setWidth_of_le (by decide)] at hn
    omega
  | regA => exact .inl rfl
  | regB => exact .inr (.inl rfl)
  | regC => exact .inr (.inr rfl)
  | reserved => cases h

/-- Only tag 5 reads register B. -/
theorem resolveCombo_replace_b {t : Combo} (ht : t ≠ .regB) (s : State) (v : Word) :
    resolveCombo t { s with b := v } = resolveCombo t s := by
  cases t with
  | regB => exact absurd rfl ht
  | _ => rfl

theorem exists_resolveCombo {t : Combo} (ht : t ≠ .reserved) (s : State) : ∃ n, resolveCombo t s = some n :=
  Option.ne_none_iff_exists'.1 fun h => ht ((resolveCombo_none_iff t s).1 h)

/-! ### The family's shared effect (spec/40_shift.md section 1) -/

theorem shiftInto_of_value (r : Reg) {t : Combo} {s : State} {n : Word} (h : resolveCombo t s = some n) :
    shiftInto r t s = .next (advance (setReg r (shiftRight s.a n) s)) := by
  simp [shiftInto, withCombo, h, getReg]

theorem shiftInto_literal_zero (r : Reg) (s : State) :
    shiftInto r (.literal 0) s = .next (advance (setReg r s.a s)) := by
  rw [shiftInto_of_value r (resolveCombo_literal 0 s)]
  exact congrArg (fun q => Host.Outcome.next (advance (setReg r q s))) (shiftRight_zero s.a)

theorem shiftInto_regA (r : Reg) (s : State) : shiftInto r .regA s = .next (advance (setReg r 0 s)) := by
  rw [shiftInto_of_value r (resolveCombo_regA s), shiftRight_self]

theorem shiftInto_reserved (r : Reg) (s : State) : shiftInto r .reserved s = .next (raiseFault .reservedOperand s) := rfl

/-- Where B is the destination and not the count, the next state does not depend on its old value (spec/40_shift.md R62). -/
theorem shiftInto_b_replace_b {t : Combo} (hB : t ≠ .regB) (hres : t ≠ .reserved) (s : State) (v : Word) :
    shiftInto .b t { s with b := v } = shiftInto .b t s := by
  obtain ⟨n, hn⟩ := exists_resolveCombo hres s
  rw [shiftInto_of_value .b hn, shiftInto_of_value .b ((resolveCombo_replace_b hB s v).trans hn)]
  rfl

/-! ### The three instructions: `shiftInto` at A, B and C -/

/-- Settles O9: the laws of `shiftInto` at register A with those of `shiftRight`; a count of 64 comes from a register. -/
theorem shiftADividesA : Obligations.ShiftADividesA := by
  refine ⟨fun t => ⟨rfl, decode_encode (.shiftA t)⟩, fun t s n hn => ?effect, shiftInto_literal_zero .a, shiftInto_regA .a,
    shiftInto_reserved .a, overrunsAtLastEntry 0⟩
  case effect =>
    refine ⟨shiftRight s.a n, shiftRight_toNat s.a n, shiftInto_of_value .a hn, shiftRight_le s.a n, fun h64 => ?_, fun ha => ?_⟩
    · exact ⟨shiftRight_of_le s.a h64, register_of_resolveCombo_ge_four hn (by omega)⟩
    · rw [ha, zero_shiftRight]

/-- Settles O10: the laws of `shiftInto` at register B; tag 5 is resolved before B is written. -/
theorem shiftBDividesAIntoB : Obligations.ShiftBDividesAIntoB :=
  ⟨fun t => ⟨rfl, decode_encode (.shiftB t)⟩,
    fun _ s n hn => ⟨shiftRight s.a n, shiftRight_toNat s.a n, shiftInto_of_value .b hn, shiftRight_of_le s.a⟩,
    shiftInto_literal_zero .b, shiftInto_regA .b,
    fun s => ⟨shiftRight s.a s.b, shiftRight_toNat s.a s.b, shiftInto_of_value .b (resolveCombo_regB s)⟩,
    fun _ s v hB hres => shiftInto_b_replace_b hB hres s v, shiftInto_reserved .b, overrunsAtLastEntry 6⟩

/-- Settles O11: the laws of `shiftInto` at register C; tag 6 is resolved before C is written. -/
theorem shiftCDividesAIntoC : Obligations.ShiftCDividesAIntoC :=
  ⟨fun t => ⟨rfl, decode_encode (.shiftC t)⟩,
    fun _ s n hn => ⟨shiftRight s.a n, shiftRight_toNat s.a n, shiftInto_of_value .c hn, shiftRight_of_le s.a⟩,
    shiftInto_literal_zero .c, shiftInto_regA .c,
    fun s => ⟨shiftRight s.a s.c, shiftRight_toNat s.a s.c, shiftInto_of_value .c (resolveCombo_regC s)⟩,
    shiftInto_reserved .c, overrunsAtLastEntry 7⟩

end Sys2Proof.Machine
end

section
/-! PROOFS. The instructions of spec/41_bitwise_b.md: the laws of the exclusive or and of the zero extension that they rest on, what
each of the three does as one equation, and the obligations of R70, R71 and R72. -/

namespace Sys2Proof.Machine

/-! ### The exclusive or and the zero extension as operations (spec/40_shift.md R66, R67) -/

theorem zext_eq_ofNat (n : Entry) : zext n = BitVec.ofNat 64 n.toNat :=
  BitVec.eq_of_toNat_eq (by rw [zext_toNat, BitVec.toNat_ofNat, Nat.mod_eq_of_lt (by omega)])

@[simp] theorem zext_zero : zext 0 = 0 := rfl

@[simp] theorem xorWord_zero (x : Word) : xorWord x 0 = x := BitVec.xor_zero

@[simp] theorem xorWord_self (x : Word) : xorWord x x = 0 := BitVec.xor_self

/-- The exclusive or with one value is its own inverse. -/
@[simp] theorem xorWord_xorWord_right (x y : Word) : xorWord (xorWord x y) y = x := by
  rw [xorWord, xorWord, BitVec.xor_assoc, BitVec.xor_self, BitVec.xor_zero]

/-- The extended remainder of a literal combo operand is the literal. -/
theorem zext_mod8_setWidth (n : BitVec 2) : zext (mod8 (n.setWidth 64)) = BitVec.ofNat 64 n.toNat := by
  rw [zext_eq_ofNat, mod8_setWidth_toNat]

/-! ### xor-literal and xor-registers: one equation each, for every operand entry -/

theorem exec_xorLiteral (n : Entry) (s : State) :
    exec (.xorLiteral n) s = .next (advance (setReg .b (xorWord s.b (zext n)) s)) := rfl

theorem exec_xorRegisters (n : Entry) (s : State) :
    exec (.xorRegisters n) s = .next (advance (setReg .b (xorWord s.b s.c) s)) := rfl

/-- A second execution undoes the first; `pc` alone has moved, by two instructions. -/
theorem exec_xorLiteral_twice {n : Entry} {s t : State} (h : exec (.xorLiteral n) s = .next t) :
    exec (.xorLiteral n) t = .next { s with pc := s.pc + 4 } := by
  rw [exec_xorLiteral] at h
  cases h
  rw [exec_xorLiteral, advance_b, setReg_b_b, xorWord_xorWord_right]
  rfl

/-- Settles O12: the equation of xor-literal; bits 63 to 3 are kept because the extended literal has none there. -/
theorem xorLiteralChangesLowBitsOfB : Obligations.XorLiteralChangesLowBitsOfB := by
  refine ⟨fun n => ⟨rfl, decode_encode (.xorLiteral n)⟩, fun n s => ?effect, overrunsAtLastEntry 1⟩
  case effect =>
    refine ⟨xorWord s.b (zext n), congrArg (s.b ^^^ ·) (zext_eq_ofNat n), exec_xorLiteral n s,
      fun i hi => xorWord_zext_getLsbD_of_le s.b n hi, fun h0 => ?_, fun t ht => exec_xorLiteral_twice ht⟩
    rw [h0, zext_zero, xorWord_zero]

/-- Settles O14: the equation of xor-registers, whose right side does not name the operand entry, and the laws of `xorWord`. -/
theorem xorRegistersIgnoresItsOperand : Obligations.XorRegistersIgnoresItsOperand := by
  refine ⟨fun n => ⟨rfl, decode_encode (.xorRegisters n)⟩, fun n s => ?effect, overrunsAtLastEntry 4⟩
  case effect =>
    refine ⟨xorWord s.b s.c, xorWord_getLsbD s.b s.c, exec_xorRegisters n s, fun hc => ?_, fun hbc => ?_⟩
    · rw [hc, xorWord_zero]
    · rw [hbc, xorWord_self]

/-! ### mod-B: with a value for its operand, and without one -/

theorem exec_modB_of_value {t : Combo} {s : State} {x : Word} (h : resolveCombo t s = some x) :
    exec (.modB t) s = .next (advance (setReg .b (zext (mod8 x)) s)) := by
  simp [exec, execModB, withCombo, h]

theorem exec_modB_literal (n : BitVec 2) (s : State) :
    exec (.modB (.literal n)) s = .next (advance (setReg .b (BitVec.ofNat 64 n.toNat) s)) := by
  rw [exec_modB_of_value (resolveCombo_literal n s), zext_mod8_setWidth]

theorem exec_modB_reserved (s : State) : exec (.modB .reserved) s = .next (raiseFault .reservedOperand s) := rfl

/-- The old value of B is discarded, unless it is the operand (spec/41_bitwise_b.md R71). -/
theorem exec_modB_replace_b {t : Combo} (hB : t ≠ .regB) (hres : t ≠ .reserved) (s : State) (w : Word) :
    exec (.modB t) { s with b := w } = exec (.modB t) s := by
  obtain ⟨x, hx⟩ := exists_resolveCombo hres s
  rw [exec_modB_of_value hx, exec_modB_of_value ((resolveCombo_replace_b hB s w).trans hx)]
  rfl

/-- Settles O13: the laws of mod-B by operand; the value written is an extended entry, so it has three bits. -/
theorem modBLoadsOperandModEight : Obligations.ModBLoadsOperandModEight := by
  refine ⟨fun t => ⟨rfl, decode_encode (.modB t)⟩, fun t s x hx => ?effect, exec_modB_literal,
    fun t s w hB hres => exec_modB_replace_b hB hres s w, exec_modB_reserved, overrunsAtLastEntry 2⟩
  case effect =>
    refine ⟨zext (mod8 x), ?_, exec_modB_of_value hx, fun i hi => zext_getLsbD_of_le (mod8 x) hi⟩
    rw [zext_toNat, mod8_toNat]

end Sys2Proof.Machine
end

section
/-! PROOFS. The control transfer of spec/42_jump.md: the halt check as one write of STATUS, the step of a jump by its two outcomes,
the run of a jump to itself, and the obligation of R80. -/

namespace Sys2Proof.Machine

/-! ### The halt check, and a run that repeats its state -/

/-- In RUNNING the halt check is one write of STATUS, which is RUNNING again where the run goes on. -/
theorem haltCheck_eq_of_running {s : State} (h : s.status = .running) :
    haltCheck s = { s with status := if s.program.length ≤ s.pc then .halted else .running } := by
  rw [haltCheck_of_running h]
  split
  · rfl
  · rw [← h]

/-- A state that a step leaves as it is repeats for ever (spec/42_jump.md R84). -/
theorem run_of_step_self {s : State} (h : step s = .next s) (k : Nat) : run k s = .next s := by
  induction k with
  | zero => rfl
  | succ k ih => rw [run_succ_of_next h, ih]

/-! ### The step that executes jump-if-nonzero -/

theorem step_jumpIfNonzero_taken {n : Entry} {s : State} (he : Executes s (.jumpIfNonzero n)) (ha : s.a ≠ 0) :
    step s = .next { s with pc := n.toNat, status := if s.program.length ≤ n.toNat then .halted else .running } := by
  have hrun : (jumpTo n s).status = .running := he.1
  rw [step_eq_haltCheck_exec he (exec_jumpIfNonzero_taken n ha), haltCheck_eq_of_running hrun]
  rfl

theorem step_jumpIfNonzero_not_taken {n : Entry} {s : State} (he : Executes s (.jumpIfNonzero n)) (ha : s.a = 0) :
    step s = .next { s with pc := s.pc + 2, status := if s.program.length ≤ s.pc + 2 then .halted else .running } := by
  have hrun : (advance s).status = .running := he.1
  rw [step_eq_haltCheck_exec he (exec_jumpIfNonzero_not_taken n ha), haltCheck_eq_of_running hrun]
  rfl

/-- A taken jump to its own index changes nothing: the fetch that answered it stood below LEN, so the run does not halt. -/
theorem step_jumpIfNonzero_self {n : Entry} {s : State} (he : Executes s (.jumpIfNonzero n)) (ha : s.a ≠ 0)
    (hn : n.toNat = s.pc) : step s = .next s := by
  obtain ⟨hr, hf⟩ := he
  obtain ⟨hin, -, -⟩ := fetch_ok hf
  have hbelow : ¬ s.program.length ≤ s.pc := by omega
  rw [step_jumpIfNonzero_taken ⟨hr, hf⟩ ha, hn, if_neg hbelow, ← hr]

/-- Settles O15: the two outcomes of the jump as an instruction and as a step; the self-jump by the state it repeats. -/
theorem jumpIfNonzeroSetsPc : Obligations.JumpIfNonzeroSetsPc :=
  ⟨fun n => ⟨rfl, decode_encode (.jumpIfNonzero n)⟩,
    fun n _ ha => exec_jumpIfNonzero_taken n ha, fun n _ ha => exec_jumpIfNonzero_not_taken n ha,
    fun _ _ he ha => step_jumpIfNonzero_taken he ha, fun _ _ he ha => step_jumpIfNonzero_not_taken he ha,
    fun _ _ he ha hn k => run_of_step_self (step_jumpIfNonzero_self he ha hn) k, overrunsAtLastEntry 3⟩

end Sys2Proof.Machine
end

section
/-! PROOFS. The one instruction that produces output, `emit` of spec/43_emit.md: what it does with a value for its operand, with a
literal and without a value, and the obligation of R85. -/

namespace Sys2Proof.Machine

/-- The remainder of a literal combo operand is the literal, as an entry. -/
theorem mod8_setWidth (n : BitVec 2) : mod8 (n.setWidth 64) = BitVec.ofNat 3 n.toNat :=
  BitVec.eq_of_toNat_eq (by rw [mod8_setWidth_toNat, BitVec.toNat_ofNat, Nat.mod_eq_of_lt (by omega)])

/-! ### emit: with a value for its operand, and without one -/

theorem exec_emit_of_value {t : Combo} {s : State} {x : Word} (h : resolveCombo t s = some x) :
    exec (.emit t) s = .next (advance (appendOut (mod8 x) s)) := by
  simp [exec, execEmit, withCombo, h]

theorem exec_emit_literal (n : BitVec 2) (s : State) :
    exec (.emit (.literal n)) s = .next (advance (appendOut (BitVec.ofNat 3 n.toNat) s)) := by
  rw [exec_emit_of_value (resolveCombo_literal n s), mod8_setWidth]

theorem exec_emit_reserved (s : State) : exec (.emit .reserved) s = .next (raiseFault .reservedOperand s) := rfl

/-- Settles O16: the laws of emit by operand; `advance` after `appendOut` writes OUT and `pc` and no other field. -/
theorem emitAppendsOperandModEight : Obligations.EmitAppendsOperandModEight :=
  ⟨fun t => ⟨rfl, decode_encode (.emit t)⟩,
    fun _ _ x hx => ⟨mod8 x, mod8_toNat x, exec_emit_of_value hx⟩,
    exec_emit_literal, exec_emit_reserved, overrunsAtLastEntry 5⟩

end Sys2Proof.Machine
end

section
/-! PROOFS. The faults of spec/60_exceptions.md: which pairs are reserved as the program store shows them, what a step of a running
device does by the place it stands at, what a refused launch makes, and the obligations of R92, R93, R94 and R95. -/

namespace Sys2Proof.Machine

/-! ### Reserved pairs (spec/60_exceptions.md R92) -/

theorem decodePair_not_wf_iff (opcode operand : Entry) :
    (decodePair opcode operand).wf = false ↔ takesCombo opcode = true ∧ operand = 7 := by
  rw [Bool.eq_false_iff, ne_eq, decodePair_wf_iff, not_or, Bool.not_eq_false, not_not]

/-- A running device is about to execute an illegal instruction exactly where the store holds a combo opcode and then the entry 7. -/
theorem exists_executes_not_wf_iff {s : State} (hr : s.status = .running) :
    (∃ i, Executes s i ∧ i.wf = false) ↔
      (readEntry s.program s.pc).any takesCombo = true ∧ readEntry s.program (s.pc + 1) = some 7 := by
  constructor
  · rintro ⟨i, ⟨-, hf⟩, hwf⟩
    obtain ⟨hin, -, rfl⟩ := fetch_ok hf
    obtain ⟨hcombo, h7⟩ := (decodePair_not_wf_iff _ _).1 hwf
    rw [readEntry_of_lt (Nat.lt_of_succ_lt hin), readEntry_of_lt hin, h7]
    exact ⟨hcombo, rfl⟩
  · rintro ⟨hcombo, h7⟩
    have hin : s.pc + 1 < s.program.length := by
      by_contra hout
      rw [(readEntry_none_iff _ _).2 (Nat.le_of_not_lt hout)] at h7
      cases h7
    rw [readEntry_of_lt (Nat.lt_of_succ_lt hin)] at hcombo
    rw [readEntry_of_lt hin] at h7
    exact ⟨_, executes_pair hr hin, (decodePair_not_wf_iff _ _).2 ⟨hcombo, Option.some.inj h7⟩⟩

theorem ne_some_of_any_takesCombo {e : Option Entry} {opcode : Entry} (h : e.any takesCombo = true)
    (hop : takesCombo opcode = false) : e ≠ some opcode := by
  rintro rfl
  exact absurd h (by simp [hop])

/-! ### The step of a running device, by where it stands -/

theorem exec_cause_of_wf {i : Instr} {s t : State} (hwf : i.wf = true) (h : exec i s = .next t) : t.cause = s.cause := by
  rcases exec_cases h with ⟨hn, -⟩ | ⟨-, -, -, r, v, rfl⟩ | ⟨-, c, v, -, -, rfl⟩ | ⟨-, n, -, -, rfl⟩ | ⟨-, n, -, -, rfl⟩
  · exact absurd hwf (by simp [hn])
  all_goals simp

theorem step_executes_wf_no_fault {s t : State} {i : Instr} (he : Executes s i) (hwf : i.wf = true)
    (h : step s = .next t) : t.status ≠ .faulted ∧ t.cause = s.cause := by
  obtain ⟨u, hu, rfl⟩ := step_of_executes he h
  have hrun : u.status = .running := (exec_status_of_wf hwf hu).trans he.1
  refine ⟨?_, by rw [haltCheck_cause, exec_cause_of_wf hwf hu]⟩
  rw [haltCheck_status_of_running hrun]
  split <;> simp

/-- Where each outcome of a running step comes from: `OPERAND_OVERRUN` at the last entry, `RESERVED_OPERAND` at an illegal pair,
and no fault and no new cause at a legal one. -/
theorem step_running_fault_cases {s t : State} (hr : s.status = .running) (h : step s = .next t) :
    (s.pc + 1 = s.program.length ∧ t = raiseFault .operandOverrun s) ∨
    (∃ i, Executes s i ∧ i.wf = false ∧ t = raiseFault .reservedOperand s) ∨
    (∃ i, Executes s i ∧ i.wf = true ∧ t.status ≠ .faulted ∧ t.cause = s.cause) := by
  rcases step_cases h with ⟨hn, -⟩ | ⟨-, hlast, ht⟩ | ⟨-, -, i, -, hf, -, -⟩
  · exact absurd hr hn
  · exact .inl ⟨hlast, ht⟩
  · have he : Executes s i := ⟨hr, hf⟩
    cases hwf : i.wf with
    | false =>
      rw [step_of_executes_not_wf he hwf] at h
      cases h
      exact .inr (.inl ⟨i, he, hwf, rfl⟩)
    | true => exact .inr (.inr ⟨i, he, hwf, step_executes_wf_no_fault he hwf h⟩)

/-- A step of a running device that ends in FAULTED is one fault entry of R95, with one of the two causes of execution. -/
theorem step_faulted_eq_raiseFault {s t : State} (hr : s.status = .running) (h : step s = .next t)
    (hf : t.status = .faulted) : t = raiseFault t.cause s ∧ (t.cause = .reservedOperand ∨ t.cause = .operandOverrun) := by
  rcases step_running_fault_cases hr h with ⟨-, rfl⟩ | ⟨i, -, -, rfl⟩ | ⟨i, -, -, hno, -⟩
  · exact ⟨rfl, .inr rfl⟩
  · exact ⟨rfl, .inl rfl⟩
  · exact absurd hf hno

/-! ### An odd `pc` (spec/60_exceptions.md R93) -/

/-- Only a taken jump changes the parity of `pc`: a fault leaves `pc` alone and every other instruction adds 2. -/
theorem taken_jump_of_step_pc_parity {s t : State} (hr : s.status = .running) (h : step s = .next t)
    (hpar : t.pc % 2 ≠ s.pc % 2) :
    ∃ n : Entry, fetch s = .ok (.jumpIfNonzero n, []) ∧ s.a ≠ 0 ∧ t.pc = n.toNat := by
  rcases step_running_fault_cases hr h with ⟨-, rfl⟩ | ⟨i, -, -, rfl⟩ | ⟨i, he, hwf, -, -⟩
  · exact absurd rfl hpar
  · exact absurd rfl hpar
  · by_cases hj : ∀ n, i ≠ .jumpIfNonzero n
    · have hpc := step_pc_of_not_jump he hwf hj h
      omega
    · obtain ⟨n, rfl⟩ : ∃ n, i = .jumpIfNonzero n := by simpa using hj
      have hpc := step_pc_of_jumpIfNonzero he h
      by_cases ha : s.a ≠ 0
      · exact ⟨n, he.2, ha, by rw [hpc, if_pos ha]⟩
      · rw [if_neg ha] at hpc
        omega

/-! ### A refused launch (spec/60_exceptions.md R94) -/

theorem acceptableLength_false_iff (n : Nat) : acceptableLength n = false ↔ n = 0 ∨ n % 2 = 1 ∨ 65534 < n := by
  rw [Bool.eq_false_iff, ne_eq, acceptableLength_iff]
  omega

theorem launchState_refused (a b c : Word) {p : Program} (h : acceptableLength p.length = false) :
    (launchState a b c p).status = .faulted ∧ (launchState a b c p).cause = .badProgram := by
  simp [launchState, h]

/-- Whether a launch is refused depends on the program's length alone. -/
theorem launchState_status_cause_congr (a b c : Word) {p q : Program} (h : p.length = q.length) :
    (launchState a b c p).status = (launchState a b c q).status ∧
      (launchState a b c p).cause = (launchState a b c q).cause := by
  simp [launchState, h]

/-! ### The obligations -/

/-- Settles O23: both ways through `exists_executes_not_wf_iff`; opcodes 1, 3 and 4 take no combo operand. -/
theorem reservedOperandFaultsAtExecution : Obligations.ReservedOperandFaultsAtExecution := by
  refine ⟨fun s hr hcombo h7 => ?raises, fun s t hr hnone h hcause => ?only, fun a b c p s t h => ?launch, fun _ => rfl⟩
  case raises =>
    obtain ⟨i, he, hwf⟩ := (exists_executes_not_wf_iff hr).2 ⟨hcombo, h7⟩
    exact step_of_executes_not_wf he hwf
  case only =>
    rcases step_running_fault_cases hr h with ⟨-, rfl⟩ | ⟨i, he, hwf, -⟩ | ⟨i, -, -, -, hkeep⟩
    · cases hcause
    · obtain ⟨hcombo, h7⟩ := (exists_executes_not_wf_iff hr).1 ⟨i, he, hwf⟩
      exact ⟨hcombo, h7, ne_some_of_any_takesCombo hcombo rfl, ne_some_of_any_takesCombo hcombo rfl,
        ne_some_of_any_takesCombo hcombo rfl⟩
    · rw [hkeep, hnone] at hcause
      cases hcause
  case launch =>
    obtain ⟨-, rfl⟩ := launch_cases h
    rcases launchState_status_cause a b c p with ⟨-, hc⟩ | ⟨-, hc⟩ <;> simp [hc]

/-- Settles O24: the place of the fault from `step_running_fault_cases`, the way to an odd `pc` from its parity rule, and an odd
LEN from the length check of the launch. -/
theorem operandOverrunAtLastEntry : Obligations.OperandOverrunAtLastEntry := by
  refine ⟨fun s hr hlast => step_at_last_entry hr hlast, fun s t hr hnone h hcause => ?only,
    fun s t hr heven h hodd => ?parity, fun a b c p s t hodd h => ?oddLength⟩
  case only =>
    rcases step_running_fault_cases hr h with ⟨hlast, -⟩ | ⟨i, -, -, rfl⟩ | ⟨i, -, -, -, hkeep⟩
    · exact ⟨hlast, fun hlen => by omega⟩
    · cases hcause
    · rw [hkeep, hnone] at hcause
      cases hcause
  case parity =>
    obtain ⟨n, hf, ha, hpc⟩ := taken_jump_of_step_pc_parity hr h (by omega)
    exact ⟨n, hf, ha, hpc ▸ hodd, hpc⟩
  case oddLength =>
    obtain ⟨-, rfl⟩ := launch_cases h
    exact (launchState_refused a b c ((acceptableLength_false_iff _).2 (.inr (.inl hodd)))).2

/-- Settles O25: the fault entry of `step_faulted_eq_raiseFault`, and the run of a device that is not RUNNING. -/
theorem faultsArePrecise : Obligations.FaultsArePrecise := by
  intro s t hr h hf
  obtain ⟨heq, hcause⟩ := step_faulted_eq_raiseFault hr h hf
  exact ⟨heq, hcause, run_of_not_running (by simp [hf])⟩

/-- Settles O26: the refused launch state, which no step leaves; a launch reads the length and no entry. -/
theorem badLengthIsRefusedAtLaunch : Obligations.BadLengthIsRefusedAtLaunch := by
  refine ⟨fun a b c p s hn hbad => ?refused, fun a b c p q s hn hlen => ?entries⟩
  case refused =>
    obtain ⟨hst, hcause⟩ := launchState_refused a b c ((acceptableLength_false_iff _).2 hbad)
    exact ⟨launchState a b c p, launch_of_not_running a b c p hn, hst, hcause, rfl, rfl, rfl, rfl, rfl,
      run_of_not_running (by simp [hst])⟩
  case entries =>
    obtain ⟨hst, hcause⟩ := launchState_status_cause_congr a b c hlen
    rw [launch_of_not_running a b c p hn, launch_of_not_running a b c q hn]
    exact ⟨congrArg some hst, congrArg some hcause⟩

end Sys2Proof.Machine
end

section
/-! PROOFS. The host's moves and the end of a run of spec/70_reset_and_hazards.md: what an accepted launch makes, what the host
reads back, how far `pc` can be at the end of a step, and the obligations of R110, R111, R114 and R118. -/

namespace Sys2Proof.Machine

/-! ### The status that a launch makes (spec/70_reset_and_hazards.md R111) -/

theorem launchState_accepted (a b c : Word) {p : Program} (h : acceptableLength p.length = true) :
    (launchState a b c p).status = .running ∧ (launchState a b c p).cause = .none := by
  simp [launchState, h]

/-- The invariant of RUNNING holds at launch: only a launch that is not refused makes RUNNING, and then `pc = 0 < LEN`. -/
theorem launchState_pc_lt_of_running {a b c : Word} {p : Program} (h : (launchState a b c p).status = .running) :
    (launchState a b c p).pc < (launchState a b c p).program.length := by
  cases hl : acceptableLength p.length with
  | true => exact ((acceptableLength_iff _).1 hl).1
  | false => exact absurd h (by simp [launchState_refused a b c hl])

/-! ### What the host reads (spec/70_reset_and_hazards.md R118) -/

theorem readback_of_stopped {s : State} (h : s.status = .halted ∨ s.status = .faulted) :
    readback s = some { a := s.a, b := s.b, c := s.c, pc := s.pc, out := s.out } := by
  rcases h with h | h <;> simp [readback, h]

theorem readback_of_not_stopped {s : State} (h : ¬(s.status = .halted ∨ s.status = .faulted)) : readback s = none := by
  obtain ⟨hh, hf⟩ := not_or.1 h
  unfold readback
  split
  case h_1 hs => exact absurd hs hh
  case h_2 hs => exact absurd hs hf
  all_goals rfl

theorem readback_isSome_iff (s : State) : (readback s).isSome = true ↔ s.status = .halted ∨ s.status = .faulted := by
  by_cases h : s.status = .halted ∨ s.status = .faulted
  · simp [readback_of_stopped h, h]
  · simp [readback_of_not_stopped h, h]

theorem eq_of_readback_eq_some {s : State} {r : Readback} (h : readback s = some r) :
    r = { a := s.a, b := s.b, c := s.c, pc := s.pc, out := s.out } := by
  have hstopped := (readback_isSome_iff s).1 (Option.isSome_of_eq_some h)
  rw [readback_of_stopped hstopped] at h
  exact (Option.some.inj h).symm

/-! ### The end of a step and where `pc` stands (spec/70_reset_and_hazards.md R114) -/

/-- Line 4 of the step after an instruction that leaves the run in progress, with the LEN of the state before. -/
theorem step_of_exec_running {s t : State} {i : Instr} (he : Executes s i) (h : exec i s = .next t)
    (hrun : t.status = .running) :
    step s = .next (if s.program.length ≤ t.pc then { t with status := .halted } else t) := by
  rw [step_eq_haltCheck_exec he h, haltCheck_of_running hrun, exec_program h]

/-- A legal instruction advances `pc` by 2, unless it is a taken jump. -/
theorem step_pc_of_executes_wf {s t : State} {i : Instr} (he : Executes s i) (hwf : i.wf = true) (h : step s = .next t) :
    t.pc = s.pc + 2 ∨ ∃ n : Entry, i = .jumpIfNonzero n ∧ s.a ≠ 0 ∧ t.pc = n.toNat := by
  by_cases hj : ∃ n, i = .jumpIfNonzero n
  · obtain ⟨n, rfl⟩ := hj
    have hpc := step_pc_of_jumpIfNonzero he h
    by_cases ha : s.a ≠ 0
    · exact .inr ⟨n, rfl, ha, by rw [hpc, if_pos ha]⟩
    · exact .inl (by rw [hpc, if_neg ha])
  · exact .inl (step_pc_of_not_jump he hwf (not_exists.1 hj) h)

/-- Where a halted run stands: an advance comes from a pair inside the program and so reaches LEN and no further, and a jump
target is one entry. -/
theorem step_halted_pc {s t : State} (hr : s.status = .running) (h : step s = .next t) (hh : t.status = .halted) :
    t.program.length ≤ t.pc ∧ t.cause = s.cause ∧
      (t.pc = t.program.length ∨ ∃ n : Entry, fetch s = .ok (.jumpIfNonzero n, []) ∧ s.a ≠ 0 ∧ t.pc = n.toNat ∧
        t.program.length ≤ n.toNat ∧ n.toNat ≤ 7) := by
  obtain ⟨-, hpast⟩ := (step_halted_iff hr h).1 hh
  rcases step_running_fault_cases hr h with ⟨-, rfl⟩ | ⟨i, -, -, rfl⟩ | ⟨i, he, hwf, -, hcause⟩
  · cases hh
  · cases hh
  · refine ⟨hpast, hcause, ?_⟩
    rcases step_pc_of_executes_wf he hwf h with hadv | ⟨n, rfl, ha, hn⟩
    · obtain ⟨hin, -, -⟩ := fetch_ok he.2
      have hlen : t.program.length = s.program.length := congrArg List.length (step_program h)
      exact .inl (by omega)
    · exact .inr ⟨n, he.2, ha, hn, hn ▸ hpast, Nat.le_of_lt_succ n.isLt⟩

/-! ### The obligations -/

/-- Settles O22: the halt check by `step_of_exec_running`, the place of the halt by `step_halted_pc`, the rest by the rules of a
stopped device and of a launch. -/
theorem runHaltsAtProgramEnd : Obligations.RunHaltsAtProgramEnd := by
  refine ⟨fun s t i he h hrun => ⟨fun hpast => ?halts, fun hin => ?goesOn⟩, fun s t hr h hh => step_halted_pc hr h hh,
    fun s hs k => run_of_not_running (by simp [hs]) k, fun a b c p s t h => ?launch⟩
  case halts => rw [step_of_exec_running he h hrun, if_pos hpast]
  case goesOn => rw [step_of_exec_running he h hrun, if_neg (Nat.not_le.2 hin)]
  case launch =>
    obtain ⟨-, rfl⟩ := launch_cases h
    refine ⟨?_, launchState_pc_lt_of_running⟩
    rcases launch_status h with hst | ⟨hst, -⟩ <;> simp [hst]

/-- Settles O35: a cold reset is IDLE, so no step changes it and every launch from it is accepted; it does not read the state
before, nor a launch the unspecified values. -/
theorem coldResetLeavesIdle : Obligations.ColdResetLeavesIdle := by
  have hstopped : ∀ (u : Unspecified) (s : State), (coldReset u s).status ≠ .running := fun u s => by simp
  exact ⟨fun u s => ⟨rfl, rfl, rfl, rfl, run_of_not_running (hstopped u s)⟩, fun _ _ _ => rfl,
    fun u u' s s' a b c p => ⟨launchState a b c p, launch_of_not_running a b c p (hstopped u s),
      launch_of_not_running a b c p (hstopped u' s')⟩⟩

/-- Settles O37: a possible launch makes `launchState`, whose status is that of the length. -/
theorem launchWritesTheWholeState : Obligations.LaunchWritesTheWholeState := by
  refine ⟨fun a b c p s hr => launch_of_running a b c p hr, fun a b c p s hn => ?writes, fun a b c p s s' hn hn' => ?fresh⟩
  case writes =>
    refine ⟨launchState a b c p, launch_of_not_running a b c p hn, rfl, rfl, rfl, rfl, rfl, rfl, fun hbad => ?refused,
      fun hgood => ?accepted⟩
    case refused => exact launchState_refused a b c ((acceptableLength_false_iff _).2 hbad)
    case accepted =>
      rw [← acceptableLength_false_iff, Bool.not_eq_false] at hgood
      obtain ⟨hst, hcause⟩ := launchState_accepted a b c hgood
      exact ⟨hst, hcause, launchState_pc_lt_of_running hst⟩
  case fresh =>
    rw [launch_of_not_running a b c p hn, launch_of_not_running a b c p hn']

/-- Settles O38: in RUNNING there is neither a launch nor a readback, and a readback holds the fields of a stopped state. -/
theorem hostActsOnlyOnAStoppedRun : Obligations.HostActsOnlyOnAStoppedRun := by
  refine ⟨fun s hr => ⟨readback_of_not_stopped (by simp [hr]), fun a b c p => launch_of_running a b c p hr,
    fun u => coldReset_status u s⟩, fun s => (readback_isSome_iff s).symm, fun s r h => ?reads⟩
  case reads =>
    obtain rfl := eq_of_readback_eq_some h
    exact ⟨rfl, rfl, rfl, rfl, rfl⟩

end Sys2Proof.Machine
end

section
/-! PROOFS. The encodings of spec/30_encoding.md as inverse maps: the pair of entries (R45, R51) and whole programs, the 6-bit
word, and the assembly form (R55); the statements of sections 1, 3, 4 and 7. -/

namespace Sys2Proof.Machine

/-! ### A pair of entries and its instruction determine each other -/

theorem encodeCombo_decodeCombo (t : Entry) : encodeCombo (decodeCombo t) = t := by
  revert t
  decide

theorem opcodeEntry_decodePair (opcode operand : Entry) : opcodeEntry (decodePair opcode operand) = opcode := by
  obtain ⟨o⟩ := opcode
  fin_cases o <;> rfl

/-- The entry is the operand itself under a literal or ignored operand, and its combo tag under the five combo opcodes. -/
theorem operandEntry_decodePair (opcode operand : Entry) : operandEntry (decodePair opcode operand) = operand := by
  have htag := encodeCombo_decodeCombo operand
  obtain ⟨o⟩ := opcode
  fin_cases o
  exacts [htag, rfl, htag, rfl, rfl, htag, htag, htag]

theorem encode_decodePair (opcode operand : Entry) : encode (decodePair opcode operand) = [opcode, operand] := by
  rw [encode, opcodeEntry_decodePair, operandEntry_decodePair]

theorem decode_encode_append (i : Instr) (rest : List Entry) : decode (encode i ++ rest) = .ok (i, rest) :=
  congrArg (fun j => Except.ok (j, rest)) (decodePair_entries i)

/-! ### Whole programs (spec/20_memory.md R31) -/

theorem decodeAll_cons_cons {rest : List Entry} {is : List Instr} (opcode operand : Entry) (h : decodeAll rest = .ok is) :
    decodeAll (opcode :: operand :: rest) = .ok (decodePair opcode operand :: is) := by
  simp [decodeAll, h]

theorem decodeAll_encodeAll (is : List Instr) : decodeAll (encodeAll is) = .ok is := by
  induction is with
  | nil => rfl
  | cons i is ih =>
    have hcons := decodeAll_cons_cons (opcodeEntry i) (operandEntry i) ih
    rw [decodePair_entries] at hcons
    exact hcons

theorem encodeAll_length (is : List Instr) : (encodeAll is).length = 2 * is.length := by
  induction is with
  | nil => rfl
  | cons i is ih =>
    rw [encodeAll, List.length_append, ih, List.length_cons]
    simp only [encode, List.length_cons, List.length_nil]
    omega

theorem encodeAll_injective : Function.Injective encodeAll := fun is js h => by
  have hdec : decodeAll (encodeAll is) = decodeAll (encodeAll js) := congrArg decodeAll h
  rw [decodeAll_encodeAll, decodeAll_encodeAll] at hdec
  exact Except.ok.inj hdec

/-- Reading a program of even length pair by pair leaves nothing over. -/
theorem exists_decodeAll_of_even : ∀ p : Program, p.length % 2 = 0 → ∃ is, decodeAll p = .ok is ∧ encodeAll is = p
  | [], _ => ⟨[], rfl, rfl⟩
  | [_], hodd => absurd hodd Nat.one_ne_zero
  | opcode :: operand :: rest, heven => by
    have hrest : rest.length % 2 = 0 := by
      rw [List.length_cons, List.length_cons] at heven
      omega
    obtain ⟨is, hdec, henc⟩ := exists_decodeAll_of_even rest hrest
    refine ⟨decodePair opcode operand :: is, decodeAll_cons_cons opcode operand hdec, ?_⟩
    rw [encodeAll, encode_decodePair, henc]
    rfl

/-- Settles O3: the pair laws lifted to programs by induction; the layout is unique because decoding inverts it. -/
theorem decodeAndEncodeAgree : Obligations.DecodeAndEncodeAgree := by
  refine ⟨decode_encode_append, fun is => ⟨decodeAll_encodeAll is, encodeAll_length is⟩, fun p heven => ?layout⟩
  case layout =>
    obtain ⟨is, hdec, henc⟩ := exists_decodeAll_of_even p heven
    exact ⟨is, hdec, henc, fun js hjs => encodeAll_injective (hjs.trans henc.symm)⟩

/-! ### The 6-bit word (spec/30_encoding.md section 1) -/

theorem wordOpcode_pairWord (opcode operand : Entry) : wordOpcode (pairWord opcode operand) = opcode := by
  revert opcode operand
  decide

theorem wordOperand_pairWord (opcode operand : Entry) : wordOperand (pairWord opcode operand) = operand := by
  revert opcode operand
  decide

theorem pairWord_wordOpcode_wordOperand (w : BitVec 6) : pairWord (wordOpcode w) (wordOperand w) = w := by
  revert w
  decide

theorem decodeWord_encodeWord (i : Instr) : decodeWord (encodeWord i) = i := by
  rw [decodeWord, encodeWord, wordOpcode_pairWord, wordOperand_pairWord, decodePair_entries]

theorem encodeWord_decodeWord (w : BitVec 6) : encodeWord (decodeWord w) = w := by
  rw [encodeWord, decodeWord, opcodeEntry_decodePair, operandEntry_decodePair, pairWord_wordOpcode_wordOperand]

/-- The mask keeps the opcode bits of a word and drops the operand's, so one row of the map matches, the opcode's. -/
theorem opcodeTable_filter_rowMatches (w : BitVec 6) :
    (opcodeTable.filter (fun r => rowMatches r w)).map OpcodeRow.mnemonic = [mnemonic (decodeWord w)] := by
  revert w
  decide

/-- Settles O4: word and instruction by the laws of a pair; the row and the count of legal words over all 64 words. -/
theorem everyWordMatchesOneOpcodeRow : Obligations.EveryWordMatchesOneOpcodeRow :=
  ⟨decodeWord_encodeWord, encodeWord_decodeWord, opcodeTable_filter_rowMatches, by decide, by decide⟩

/-- Settles O5: each pair of entries is one branch of the decoder. -/
theorem writtenOutWordsDecode : Obligations.WrittenOutWordsDecode :=
  ⟨rfl, rfl, rfl, rfl, rfl, rfl, rfl, rfl, rfl⟩

/-! ### The assembly form (spec/30_encoding.md section 7) -/

theorem exists_writeCombo_of_wf {t : Combo} (h : t.wf = true) : ∃ o, writeCombo t = some o ∧ assembleCombo o = some t := by
  cases t with
  | literal n => exact ⟨_, rfl, by revert n; decide⟩
  | regA => exact ⟨_, rfl, rfl⟩
  | regB => exact ⟨_, rfl, rfl⟩
  | regC => exact ⟨_, rfl, rfl⟩
  | reserved => cases h

theorem writeCombo_eq_none_iff (t : Combo) : writeCombo t = none ↔ t.wf = false := by
  cases t <;> simp [writeCombo, Combo.wf]

/-- No operand is read as the reserved tag (spec/30_encoding.md R55). -/
theorem wf_of_assembleCombo {o : AsmOperand} {t : Combo} (h : assembleCombo o = some t) : t.wf = true := by
  cases o with
  | digit n =>
    obtain ⟨-, ht⟩ : n.toNat < 4 ∧ Combo.literal (n.setWidth 2) = t := by simpa [assembleCombo] using h
    exact ht ▸ rfl
  | letterA => cases h; rfl
  | letterB => cases h; rfl
  | letterC => cases h; rfl

/-- An instruction with a legal combo operand reads back, if its mnemonic takes such an operand. -/
theorem exists_line_of_wf_combo {t : Combo} (h : t.wf = true) (m : Mnemonic) (f : Combo → Instr)
    (hasm : ∀ o, assemble ⟨m, some o⟩ = (assembleCombo o).map f) (htext : mnemonicText m = mnemonic (f t)) :
    ∃ l, (writeCombo t).map (fun o => (⟨m, some o⟩ : AsmLine)) = some l ∧ assemble l = some (f t) ∧
      mnemonicText l.mnemonic = mnemonic (f t) := by
  obtain ⟨o, hwrite, hread⟩ := exists_writeCombo_of_wf h
  exact ⟨⟨m, some o⟩, by rw [hwrite]; rfl, by rw [hasm, hread]; rfl, htext⟩

theorem exists_disassemble_of_wf {i : Instr} (h : i.wf = true) :
    ∃ l, disassemble i = some l ∧ assemble l = some i ∧ mnemonicText l.mnemonic = mnemonic i := by
  cases i with
  | shiftA t => exact exists_line_of_wf_combo h .shiftA .shiftA (fun _ => rfl) rfl
  | xorLiteral n => exact ⟨_, rfl, rfl, rfl⟩
  | modB t => exact exists_line_of_wf_combo h .modB .modB (fun _ => rfl) rfl
  | jumpIfNonzero n => exact ⟨_, rfl, rfl, rfl⟩
  | xorRegisters n => exact ⟨_, rfl, rfl, rfl⟩
  | emit t => exact exists_line_of_wf_combo h .emit .emit (fun _ => rfl) rfl
  | shiftB t => exact exists_line_of_wf_combo h .shiftB .shiftB (fun _ => rfl) rfl
  | shiftC t => exact exists_line_of_wf_combo h .shiftC .shiftC (fun _ => rfl) rfl

theorem disassemble_eq_none_iff (i : Instr) : disassemble i = none ↔ i.wf = false := by
  cases i with
  | xorLiteral n => simp [disassemble, Instr.wf]
  | jumpIfNonzero n => simp [disassemble, Instr.wf]
  | xorRegisters n => simp [disassemble, Instr.wf]
  | _ t => exact Option.map_eq_none_iff.trans (writeCombo_eq_none_iff t)

theorem assemble_of_no_operand {m : Mnemonic} (h : m ≠ .xorRegisters) : assemble ⟨m, none⟩ = none := by
  cases m with
  | xorRegisters => exact absurd rfl h
  | _ => rfl

theorem wf_of_map_assembleCombo {o : AsmOperand} {f : Combo → Instr} {i : Instr} (hf : ∀ t, (f t).wf = t.wf)
    (h : (assembleCombo o).map f = some i) : i.wf = true := by
  obtain ⟨t, ht, rfl⟩ := Option.map_eq_some_iff.1 h
  exact (hf t).trans (wf_of_assembleCombo ht)

theorem wf_of_map_assembleLiteral {o : AsmOperand} {f : Entry → Instr} {i : Instr} (hf : ∀ n, (f n).wf = true)
    (h : (assembleLiteral o).map f = some i) : i.wf = true := by
  obtain ⟨n, -, rfl⟩ := Option.map_eq_some_iff.1 h
  exact hf n

theorem wf_of_assemble {l : AsmLine} {i : Instr} (h : assemble l = some i) : i.wf = true := by
  obtain ⟨m, o⟩ := l
  cases o with
  | none =>
    by_cases hm : m = .xorRegisters
    · subst hm; cases h; rfl
    · rw [assemble_of_no_operand hm] at h
      cases h
  | some o =>
    cases m with
    | xorLiteral => exact wf_of_map_assembleLiteral (fun _ => rfl) h
    | jumpIfNonzero => exact wf_of_map_assembleLiteral (fun _ => rfl) h
    | xorRegisters => exact wf_of_map_assembleLiteral (fun _ => rfl) h
    | _ => exact wf_of_map_assembleCombo (fun _ => rfl) h

/-- Settles O6: the laws of a combo operand's spelling, carried to each opcode. -/
theorem assemblyReadsBack : Obligations.AssemblyReadsBack :=
  ⟨fun _ h => exists_disassemble_of_wf h, disassemble_eq_none_iff, fun _ _ h => wf_of_assemble h, rfl,
    fun _ h => assemble_of_no_operand h⟩

end Sys2Proof.Machine
end

section
/-! PROOFS. The invariant of the machine: where it holds at first, that every step answers a state and keeps it, and what that
says of `pc` in every run; the rule of the step (R53) by the decoded instruction. -/

namespace Sys2Proof.Machine

/-! ### States that meet the invariant -/

/-- Without a fault the invariant says where `pc` stands in an acceptable program, and nothing more. -/
theorem machineInvariant_of_no_fault {s : State} (hcause : s.cause = .none)
    (hlen : acceptableLength s.program.length = true) (hpc : PointerBounded s)
    (hst : (s.status = .running ∧ s.pc < s.program.length) ∨ (s.status = .halted ∧ s.program.length ≤ s.pc)) :
    MachineInvariant s := by
  rcases hst with ⟨hst, hin⟩ | ⟨hst, hpast⟩
  · simp [MachineInvariant, CauseAgrees, hst, hcause, hlen, hin, hpc]
  · simp [MachineInvariant, CauseAgrees, hst, hcause, hlen, hpast, hpc]

/-- After a fault of execution the invariant is what CAUSE says of the pair at `pc`. -/
theorem machineInvariant_of_faulted {s : State} (hst : s.status = .faulted) (hcause : s.cause ≠ .none)
    (hover : OverrunAtOddEnd s) (hres : ReservedAtPair s) (hbad : BadProgramAtStart s) (hpc : PointerBounded s) :
    MachineInvariant s :=
  ⟨by simp [CauseAgrees, hst, hcause], by simp [hst], by simp [hst], by simp [hst], hover, hres, hbad, hpc⟩

theorem machineInvariant_coldReset (u : Unspecified) (s : State) : MachineInvariant (coldReset u s) := by
  simp [MachineInvariant, CauseAgrees]

theorem machineInvariant_launchState (a b c : Word) (p : Program) : MachineInvariant (launchState a b c p) := by
  cases hlen : acceptableLength p.length with
  | true =>
    obtain ⟨hst, hcause⟩ := launchState_accepted a b c hlen
    exact machineInvariant_of_no_fault hcause hlen (Nat.zero_le _) (.inl ⟨hst, launchState_pc_lt_of_running hst⟩)
  | false =>
    obtain ⟨hst, hcause⟩ := launchState_refused a b c hlen
    exact machineInvariant_of_faulted hst (by simp [hcause]) (by simp [hcause]) (by simp [hcause])
      (fun _ => ⟨hlen, rfl, rfl⟩) (Nat.zero_le _)

/-- In RUNNING the invariant leaves no cause, `pc` inside the program and an acceptable length. -/
theorem MachineInvariant.of_running {s : State} (h : MachineInvariant s) (hr : s.status = .running) :
    s.cause = .none ∧ s.pc < s.program.length ∧ acceptableLength s.program.length = true := by
  obtain ⟨hcause, hinside, -⟩ := h
  refine ⟨?_, hinside hr⟩
  by_contra hne
  exact absurd (hcause.2 hne) (by simp [hr])

/-! ### Every step keeps the invariant -/

/-- The fault of a step at the last entry: an even LEN puts it at an odd index. -/
theorem machineInvariant_operandOverrun {s : State} (h : MachineInvariant s) (hr : s.status = .running)
    (hlast : s.pc + 1 = s.program.length) : MachineInvariant (raiseFault .operandOverrun s) := by
  obtain ⟨-, hin, hlen⟩ := h.of_running hr
  obtain ⟨-, heven, -⟩ := (acceptableLength_iff _).1 hlen
  refine machineInvariant_of_faulted rfl (by simp) (fun _ => ⟨hlast, ?_, hlen⟩) (by simp) (by simp)
    (le_max_of_le_left hin.le)
  simp only [raiseFault_pc]
  omega

theorem machineInvariant_reservedOperand {s : State} {i : Instr} (h : MachineInvariant s) (he : Executes s i)
    (hwf : i.wf = false) : MachineInvariant (raiseFault .reservedOperand s) := by
  obtain ⟨-, hin, hlen⟩ := h.of_running he.1
  obtain ⟨hcombo, h7⟩ := (exists_executes_not_wf_iff he.1).1 ⟨i, he, hwf⟩
  exact machineInvariant_of_faulted rfl (by simp) (by simp) (fun _ => ⟨hcombo, h7, hlen⟩) (by simp)
    (le_max_of_le_left hin.le)

/-- The bound of `pc` (spec/10_state.md R16): an advance from a whole pair reaches LEN at most, a jump target is one entry. -/
theorem pointerBounded_of_executes_wf {s t : State} {i : Instr} (he : Executes s i) (hwf : i.wf = true)
    (h : step s = .next t) : PointerBounded t := by
  obtain ⟨hin, -, -⟩ := fetch_ok he.2
  have hlen : t.program.length = s.program.length := congrArg List.length (step_program h)
  rcases step_pc_of_executes_wf he hwf h with hadv | ⟨n, -, -, hn⟩
  · exact le_max_of_le_left (by omega)
  · exact le_max_of_le_right (by omega)

theorem machineInvariant_of_executes_wf {s t : State} {i : Instr} (h : MachineInvariant s) (he : Executes s i)
    (hwf : i.wf = true) (hstep : step s = .next t) : MachineInvariant t := by
  obtain ⟨hcause, -, hlen⟩ := h.of_running he.1
  obtain ⟨hno, hkeep⟩ := step_executes_wf_no_fault he hwf hstep
  refine machineInvariant_of_no_fault (hkeep.trans hcause) (by rw [step_program hstep]; exact hlen)
    (pointerBounded_of_executes_wf he hwf hstep) ?_
  rcases step_running_status_cases he.1 hstep with ⟨hf, -⟩ | hhalted | hrunning
  · exact absurd hf hno
  · exact .inr hhalted
  · exact .inl hrunning

/-- Settles O41: outside RUNNING the state stays; in RUNNING one case per outcome of the step. -/
theorem stepKeepsTheInvariant : Obligations.StepKeepsTheInvariant := by
  intro s t h hstep
  by_cases hr : s.status = .running
  · rcases step_running_fault_cases hr hstep with ⟨hlast, rfl⟩ | ⟨i, he, hwf, rfl⟩ | ⟨i, he, hwf, -, -⟩
    · exact machineInvariant_operandOverrun h hr hlast
    · exact machineInvariant_reservedOperand h he hwf
    · exact machineInvariant_of_executes_wf h he hwf hstep
  · rw [step_of_not_running hr] at hstep
    cases hstep
    exact h

/-- Settles O40: the reset state is one of the cold resets, and a launch makes `launchState`. -/
theorem resetAndLaunchMeetTheInvariant : Obligations.ResetAndLaunchMeetTheInvariant := by
  refine ⟨machineInvariant_coldReset ⟨0, 0, 0, []⟩ State.reset, machineInvariant_coldReset, fun a b c p s t h => ?launch⟩
  case launch =>
    obtain ⟨-, rfl⟩ := launch_cases h
    exact machineInvariant_launchState a b c p

/-- Settles O36: the fields of the two states agree, and a device in IDLE takes no step. -/
theorem resetStateIsAColdReset : Obligations.ResetStateIsAColdReset :=
  ⟨fun _ => rfl, reset_memory_wf, step_of_not_running (by decide)⟩

/-! ### Runs answer a state -/

/-- The step stops in RUNNING past the end of the program only (spec/30_encoding.md R53). -/
theorem exists_step_of_pc_lt {s : State} (h : s.status = .running → s.pc < s.program.length) : ∃ t, step s = .next t := by
  by_cases hr : s.status = .running
  · rcases Nat.lt_or_ge (s.pc + 1) s.program.length with hin | hlast
    · obtain ⟨u, hu⟩ := exec_next (decodePair (s.program[s.pc]'(Nat.lt_of_succ_lt hin)) s.program[s.pc + 1]) s
      exact ⟨haltCheck u, step_eq_haltCheck_exec (executes_pair hr hin) hu⟩
    · exact ⟨_, step_at_last_entry hr (Nat.le_antisymm (h hr) hlast)⟩
  · exact ⟨s, step_of_not_running hr⟩

/-- Where a property is enough for the step to answer a state that has it again, a run of any length does. -/
theorem exists_run_of_step {P : State → Prop} (hstep : ∀ s, P s → ∃ t, step s = .next t ∧ P t) (n : Nat) {s : State}
    (hs : P s) : ∃ t, run n s = .next t ∧ P t := by
  induction n generalizing s with
  | zero => exact ⟨s, rfl, hs⟩
  | succ n ih =>
    obtain ⟨u, hu, hPu⟩ := hstep s hs
    obtain ⟨t, ht, hPt⟩ := ih hPu
    exact ⟨t, (run_succ_of_next hu).trans ht, hPt⟩

theorem exists_step_of_invariant {s : State} (h : MachineInvariant s) : ∃ t, step s = .next t :=
  exists_step_of_pc_lt fun hr => (h.of_running hr).2.1

theorem exists_run_of_invariant {s : State} (n : Nat) (h : MachineInvariant s) :
    ∃ t, run n s = .next t ∧ MachineInvariant t :=
  exists_run_of_step (P := MachineInvariant)
    (fun s hs => (exists_step_of_invariant hs).imp fun t ht => ⟨ht, stepKeepsTheInvariant s t hs ht⟩) n h

/-- Settles O42: progress from `pc < LEN`, preservation from O41. -/
theorem invariantRunsNeverStop : Obligations.InvariantRunsNeverStop :=
  ⟨fun _ h => exists_step_of_invariant h, fun _ n h => exists_run_of_invariant n h⟩

/-! ### The width of `pc` (spec/92_eei_decisions.md D3) -/

theorem run_launchState_invariant {a b c : Word} {p : Program} {u : State} {n : Nat}
    (h : run n (launchState a b c p) = .next u) : MachineInvariant u :=
  run_keeps (P := MachineInvariant) (fun hu hs => stepKeepsTheInvariant _ _ hs hu) h (machineInvariant_launchState a b c p)

/-- Settles O43: the invariant bounds `pc` by the length; an accepted length fits, and a refused launch stays at 0. -/
theorem pointerFitsSixteenBits : Obligations.PointerFitsSixteenBits := by
  intro a b c p s t u n hl hrun
  obtain ⟨-, rfl⟩ := launch_cases hl
  have hprog : u.program = p := run_program hrun
  obtain ⟨-, -, -, -, -, -, -, hbound⟩ := run_launchState_invariant hrun
  rw [PointerBounded, hprog] at hbound
  refine ⟨hbound, ?width⟩
  case width =>
    have hwidth : 2 ^ Config.pointerWidth = 65536 := rfl
    cases hlen : acceptableLength p.length with
    | true =>
      obtain ⟨-, -, hmax⟩ := (acceptableLength_iff _).1 hlen
      omega
    | false =>
      obtain ⟨hst, -⟩ := launchState_refused a b c hlen
      rw [run_of_not_running (by simp [hst])] at hrun
      cases hrun
      rw [hwidth, launchState_pc]
      decide

/-! ### The step by the decoded instruction (spec/30_encoding.md R53) -/

/-- Settles O19: the fetch is that decoding, and `step_of_executes_wf` is lines 3 and 4. -/
theorem stepRunsTheDecodedInstruction : Obligations.StepRunsTheDecodedInstruction := by
  intro s i rest hr hwf hdec
  obtain ⟨-, rfl, -⟩ := fetch_ok hdec
  obtain ⟨t, ht, -, hstep⟩ := step_of_executes_wf ⟨hr, hdec⟩ hwf
  exact ⟨t, ht, hstep⟩

end Sys2Proof.Machine
end

section
/-! PROOFS. The table of spec/10_state.md section 2: which register an instruction writes and which it reads, as frame and
independence laws of the instructions with a combo operand and of the other three; and register A, which only shift-A writes. -/

namespace Sys2Proof.Machine

/-! ### Registers under the updates of an instruction -/

@[simp] theorem getReg_advance (r : Reg) (s : State) : getReg r (advance s) = getReg r s := by cases r <;> rfl
@[simp] theorem getReg_jumpTo (r : Reg) (n : Entry) (s : State) : getReg r (jumpTo n s) = getReg r s := by cases r <;> rfl
@[simp] theorem getReg_appendOut (r : Reg) (v : Entry) (s : State) : getReg r (appendOut v s) = getReg r s := by
  cases r <;> rfl
@[simp] theorem getReg_raiseFault (r : Reg) (k : Cause) (s : State) : getReg r (raiseFault k s) = getReg r s := by
  cases r <;> rfl

theorem setReg_setReg_same (r : Reg) (v w : Word) (s : State) : setReg r v (setReg r w s) = setReg r v s := by
  cases r <;> rfl

theorem setReg_comm {q r : Reg} (h : q ≠ r) (v w : Word) (s : State) :
    setReg q v (setReg r w s) = setReg r w (setReg q v s) := by
  cases q <;> cases r <;> first | rfl | exact absurd rfl h

theorem advance_setReg (r : Reg) (v : Word) (s : State) : advance (setReg r v s) = setReg r v (advance s) := by
  cases r <;> rfl

theorem jumpTo_setReg (n : Entry) (r : Reg) (v : Word) (s : State) : jumpTo n (setReg r v s) = setReg r v (jumpTo n s) := by
  cases r <;> rfl

theorem appendOut_setReg (x : Entry) (r : Reg) (v : Word) (s : State) :
    appendOut x (setReg r v s) = setReg r v (appendOut x s) := by
  cases r <;> rfl

theorem raiseFault_setReg (k : Cause) (r : Reg) (v : Word) (s : State) :
    raiseFault k (setReg r v s) = setReg r v (raiseFault k s) := by
  cases r <;> rfl

/-! ### Writes (spec/10_state.md R12) -/

/-- The register that an instruction's row of the write table names, if any. -/
def destination : Instr → Option Reg
  | .shiftA _ => some .a
  | .xorLiteral _ => some .b
  | .modB _ => some .b
  | .jumpIfNonzero _ => none
  | .xorRegisters _ => some .b
  | .emit _ => none
  | .shiftB _ => some .b
  | .shiftC _ => some .c

theorem writesReg_iff (i : Instr) (r : Reg) : writesReg i r = true ↔ destination i = some r := by
  cases i <;> simp [writesReg, destination, eq_comm (a := r)]

/-- What a combo instruction with destination `d` leaves of the other registers, with a value for its operand or without. -/
theorem withCombo_setReg_frame {c : Combo} {s t : State} {d q : Reg} {g : Word → Word}
    (h : withCombo c s (fun x => advance (setReg d (g x) s)) = .next t) (hq : q ≠ d) : getReg q t = getReg q s := by
  rcases withCombo_cases h with ⟨x, -, rfl⟩ | ⟨-, rfl⟩
  · rw [getReg_advance, getReg_setReg_other hq]
  · rw [getReg_raiseFault]

theorem exec_getReg_of_not_destination {i : Instr} {s t : State} {q : Reg} (h : exec i s = .next t)
    (hq : destination i ≠ some q) : getReg q t = getReg q s := by
  have hne : ∀ {d : Reg}, some d ≠ some q → q ≠ d := fun hd he => hd (congrArg some he.symm)
  cases i with
  | shiftA c => exact withCombo_setReg_frame h (hne hq)
  | xorLiteral n => cases h; rw [getReg_advance, getReg_setReg_other (hne hq)]
  | modB c => exact withCombo_setReg_frame h (hne hq)
  | jumpIfNonzero n =>
    by_cases ha : s.a = 0
    · rw [exec_jumpIfNonzero_not_taken n ha] at h
      cases h
      exact getReg_advance q s
    · rw [exec_jumpIfNonzero_taken n ha] at h
      cases h
      exact getReg_jumpTo q n s
  | xorRegisters n => cases h; rw [getReg_advance, getReg_setReg_other (hne hq)]
  | emit c =>
    rcases withCombo_cases h with ⟨x, -, rfl⟩ | ⟨-, rfl⟩
    · rw [getReg_advance, getReg_appendOut]
    · rw [getReg_raiseFault]
  | shiftB c => exact withCombo_setReg_frame h (hne hq)
  | shiftC c => exact withCombo_setReg_frame h (hne hq)

/-- Settles O17: the registers by the instruction's one destination, the other fields by what `exec` does to each. -/
theorem instructionsWriteOnlyTheirDestination : Obligations.InstructionsWriteOnlyTheirDestination := by
  intro i s t h
  refine ⟨fun r hr => exec_getReg_of_not_destination h ?frame, fun q r hq hr => ?unique, fun he => ?out,
    fun hwf => ⟨exec_status_of_wf hwf h, exec_cause_of_wf hwf h⟩, fun hwf => exec_of_not_wf hwf h,
    fun k => by rw [exec_program h]⟩
  case frame =>
    rw [ne_eq, ← writesReg_iff, hr]
    exact Bool.false_ne_true
  case unique =>
    rw [writesReg_iff] at hq hr
    exact Option.some.inj (hq.symm.trans hr)
  case out => rw [exec_out h, emittedBy_of_not_emit he, Option.toList_none, List.append_nil]

/-! ### Register A (spec/40_shift.md section 2) -/

theorem exec_a_le {i : Instr} {s t : State} (h : exec i s = .next t) : t.a ≤ s.a := by
  by_cases hd : destination i = some .a
  · obtain ⟨c, rfl⟩ : ∃ c, i = .shiftA c := by
      cases i with
      | shiftA c => exact ⟨c, rfl⟩
      | _ => cases hd
    rcases withCombo_cases h with ⟨n, -, rfl⟩ | ⟨-, rfl⟩
    · exact shiftRight_le s.a n
    · exact BitVec.le_refl s.a
  · have hkeep : t.a = s.a := exec_getReg_of_not_destination (q := .a) h hd
    exact hkeep ▸ BitVec.le_refl s.a

theorem step_a_le {s t : State} (h : step s = .next t) : t.a ≤ s.a := by
  rcases step_cases h with ⟨-, rfl⟩ | ⟨-, -, rfl⟩ | ⟨-, -, i, u, -, hu, rfl⟩
  · exact BitVec.le_refl _
  · exact BitVec.le_refl _
  · rw [haltCheck_a]
    exact exec_a_le hu

/-- Settles O44: every step keeps the bound that A has at the start. -/
theorem registerANeverGrows : Obligations.RegisterANeverGrows := fun s _ _ h =>
  run_keeps (P := fun u => u.a ≤ s.a) (fun hu hs => BitVec.le_trans (step_a_le hu) hs) h (BitVec.le_refl s.a)

/-! ### Reads (spec/10_state.md R12) -/

theorem resolveCombo_setReg {c : Combo} {r : Reg} (h : comboReads c r = false) (v : Word) (s : State) :
    resolveCombo c (setReg r v s) = resolveCombo c s := by
  have hother : ∀ {q : Reg}, q ≠ r → some (getReg q (setReg r v s)) = some (getReg q s) := fun hq =>
    congrArg some (getReg_setReg_other hq v s)
  cases c with
  | literal n => rfl
  | regA => exact hother (by rintro rfl; cases h)
  | regB => exact hother (by rintro rfl; cases h)
  | regC => exact hother (by rintro rfl; cases h)
  | reserved => rfl

/-- What becomes of the next state `t` of an instruction when a register `r` that it does not read held `v`: the same state if the
instruction overwrites `r`, and otherwise `t` with `v` still in `r`. -/
def carry (r : Reg) (v : Word) (overwritten : Bool) (t : State) : State := if overwritten then t else setReg r v t

/-- A write of `d` after a change of `r` is the carried write: it overwrites `r` exactly if `d` is `r`. -/
theorem setReg_setReg_eq_carry (d r : Reg) (v w : Word) (s : State) :
    setReg d w (setReg r v s) = carry r v (d == r) (setReg d w s) := by
  by_cases hd : d = r
  · subst hd
    simp [carry, setReg_setReg_same]
  · simp [carry, hd, setReg_comm hd]

theorem advance_carry (r : Reg) (v : Word) (o : Bool) (s : State) : advance (carry r v o s) = carry r v o (advance s) := by
  cases o with
  | true => rfl
  | false => exact advance_setReg r v s

@[simp] theorem carry_pc (r : Reg) (v : Word) (o : Bool) (t : State) : (carry r v o t).pc = t.pc := by
  cases o <;> simp [carry]
@[simp] theorem carry_out (r : Reg) (v : Word) (o : Bool) (t : State) : (carry r v o t).out = t.out := by
  cases o <;> simp [carry]
@[simp] theorem carry_status (r : Reg) (v : Word) (o : Bool) (t : State) : (carry r v o t).status = t.status := by
  cases o <;> simp [carry]
@[simp] theorem carry_cause (r : Reg) (v : Word) (o : Bool) (t : State) : (carry r v o t).cause = t.cause := by
  cases o <;> simp [carry]
@[simp] theorem carry_program (r : Reg) (v : Word) (o : Bool) (t : State) : (carry r v o t).program = t.program := by
  cases o <;> simp [carry]

theorem getReg_carry_other {q r : Reg} (h : q ≠ r) (v : Word) (o : Bool) (t : State) :
    getReg q (carry r v o t) = getReg q t := by
  cases o with
  | true => rfl
  | false => exact getReg_setReg_other h v t

theorem advance_setReg_setReg_eq_carry (d r : Reg) (v w : Word) (s : State) :
    advance (setReg d w (setReg r v s)) = carry r v (r == d) (advance (setReg d w s)) := by
  rw [setReg_setReg_eq_carry, advance_carry, BEq.comm]

/-- A combo instruction whose operand does not consult `r`, with a write of `d` that does not look at `r` either. -/
theorem withCombo_setReg_of_unread {c : Combo} {r : Reg} {s t : State} (d : Reg) (g : Word → Word) (v : Word)
    (hr : comboReads c r = false) (h : withCombo c s (fun x => advance (setReg d (g x) s)) = .next t) :
    withCombo c (setReg r v s) (fun x => advance (setReg d (g x) (setReg r v s))) =
      .next (carry r v ((r == d) && c.wf) t) := by
  rw [← resolveCombo_isSome_iff c s]
  refine withCombo_transport _ (resolveCombo_setReg hr v s) (fun x hx => ?value) (fun hnone => ?fault) h
  case value => rw [hx, Option.isSome_some, Bool.and_true, advance_setReg_setReg_eq_carry]
  case fault =>
    rw [hnone, Option.isSome_none, Bool.and_false, raiseFault_setReg]
    rfl

theorem shiftInto_setReg_of_unread {c : Combo} {r : Reg} {s t : State} (d : Reg) (v : Word)
    (hr : (r == .a || comboReads c r) = false) (h : shiftInto d c s = .next t) :
    shiftInto d c (setReg r v s) = .next (carry r v ((r == d) && c.wf) t) := by
  obtain ⟨ha, hc⟩ := Bool.or_eq_false_iff.1 hr
  unfold shiftInto
  rw [getReg_setReg_other (beq_eq_false_iff_ne.1 ha).symm]
  exact withCombo_setReg_of_unread d (shiftRight (getReg .a s)) v hc h

theorem emit_setReg_of_unread {c : Combo} {r : Reg} {s t : State} (v : Word) (hr : comboReads c r = false)
    (h : exec (.emit c) s = .next t) : exec (.emit c) (setReg r v s) = .next (setReg r v t) := by
  refine withCombo_transport (setReg r v) (resolveCombo_setReg hr v s) (fun x _ => ?value) (fun _ => ?fault) h
  case value => rw [appendOut_setReg, advance_setReg]
  case fault => rw [raiseFault_setReg]

theorem jumpIfNonzero_setReg_of_unread {n : Entry} {r : Reg} {s t : State} (v : Word) (hr : r ≠ .a)
    (h : exec (.jumpIfNonzero n) s = .next t) : exec (.jumpIfNonzero n) (setReg r v s) = .next (setReg r v t) := by
  have hkeep : (setReg r v s).a = s.a := getReg_setReg_other hr.symm v s
  by_cases ha : s.a = 0
  · rw [exec_jumpIfNonzero_not_taken n ha] at h
    cases h
    rw [exec_jumpIfNonzero_not_taken n (hkeep.trans ha), advance_setReg]
  · rw [exec_jumpIfNonzero_taken n ha] at h
    cases h
    rw [exec_jumpIfNonzero_taken n (by rwa [hkeep]), jumpTo_setReg]

theorem exec_setReg_of_unread {i : Instr} {r : Reg} {s t : State} (v : Word) (hr : readsReg i r = false)
    (h : exec i s = .next t) : exec i (setReg r v s) = .next (carry r v (writesReg i r && i.wf) t) := by
  have hkeep : ∀ {q : Reg}, (r == q) = false → getReg q (setReg r v s) = getReg q s := fun hq =>
    getReg_setReg_other (beq_eq_false_iff_ne.1 hq).symm v s
  cases i with
  | shiftA c => exact shiftInto_setReg_of_unread .a v hr h
  | xorLiteral n =>
    have hb : (setReg r v s).b = s.b := hkeep (q := .b) hr
    cases h
    rw [exec_xorLiteral, hb, advance_setReg_setReg_eq_carry, Instr.wf, Bool.and_true]
    rfl
  | modB c => exact withCombo_setReg_of_unread .b (fun x => zext (mod8 x)) v hr h
  | jumpIfNonzero n => exact jumpIfNonzero_setReg_of_unread v (beq_eq_false_iff_ne.1 hr) h
  | xorRegisters n =>
    obtain ⟨hrb, hrc⟩ := Bool.or_eq_false_iff.1 hr
    have hb : (setReg r v s).b = s.b := hkeep (q := .b) hrb
    have hc : (setReg r v s).c = s.c := hkeep (q := .c) hrc
    cases h
    rw [exec_xorRegisters, hb, hc, advance_setReg_setReg_eq_carry, Instr.wf, Bool.and_true]
    rfl
  | emit c => exact emit_setReg_of_unread v hr h
  | shiftB c => exact shiftInto_setReg_of_unread .b v hr h
  | shiftC c => exact shiftInto_setReg_of_unread .c v hr h

/-- Settles O18: the next state after the change is the carried one. -/
theorem instructionsReadOnlyTheirSources : Obligations.InstructionsReadOnlyTheirSources := by
  intro i r v s t hr h
  refine ⟨_, exec_setReg_of_unread v hr h, fun q hq => getReg_carry_other hq v _ t, carry_pc .., carry_out ..,
    carry_status .., carry_cause .., carry_program .., fun hw hwf => ?overwritten, fun hnot => ?kept⟩
  case overwritten =>
    rw [hw, hwf]
    rfl
  case kept =>
    have ho : (writesReg i r && i.wf) = false := Bool.and_eq_false_iff.2 hnot
    rw [ho]
    exact getReg_setReg_same r v t

end Sys2Proof.Machine
end

section
/-! PROOFS. The programs of spec/30_encoding.md section 6: their conditions by index, runs that never fault, straight lines, and
the end of every run in which A is 0. -/

namespace Sys2Proof.Machine

/-! ### The laid-out pairs, by index -/

theorem mem_laidOut_iff (p : Program) (x y : Entry) :
    (x, y) ∈ laidOut p ↔ ∃ k, readEntry p (2 * k) = some x ∧ readEntry p (2 * k + 1) = some y := by
  rw [List.mem_iff_getElem?]
  refine exists_congr fun k => ?_
  rw [laidOut_getElem?]
  cases readEntry p (2 * k) <;> cases readEntry p (2 * k + 1) <;> simp

theorem laidOut_all_iff (p : Program) (f : Entry × Entry → Bool) :
    (laidOut p).all f = true ↔
      ∀ k x y, readEntry p (2 * k) = some x → readEntry p (2 * k + 1) = some y → f (x, y) = true := by
  rw [List.all_eq_true]
  constructor
  · intro h k x y hx hy
    exact h (x, y) ((mem_laidOut_iff p x y).2 ⟨k, hx, hy⟩)
  · rintro h ⟨x, y⟩ hmem
    obtain ⟨k, hx, hy⟩ := (mem_laidOut_iff p x y).1 hmem
    exact h k x y hx hy

theorem takesCombo_iff (x : Entry) : takesCombo x = true ↔ x = 0 ∨ x = 2 ∨ x = 5 ∨ x = 6 ∨ x = 7 := by
  simp [takesCombo, or_assoc]

theorem lt_length_of_readEntry {p : Program} {i : Nat} {x : Entry} (h : readEntry p i = some x) : i < p.length := by
  by_contra hout
  rw [(readEntry_none_iff p i).2 (Nat.le_of_not_lt hout)] at h
  cases h

theorem wellFormed_iff (p : Program) : wellFormed p = true ↔
    0 < p.length ∧ p.length % 2 = 0 ∧
      ∀ k x, 2 * k < p.length → readEntry p (2 * k) = some x → takesCombo x = true → readEntry p (2 * k + 1) ≠ some 7 := by
  unfold wellFormed
  rw [Bool.and_eq_true, Bool.and_eq_true, decide_eq_true_iff, beq_iff_eq, and_assoc, laidOut_all_iff]
  refine and_congr_right fun _ => and_congr_right fun _ =>
    ⟨fun h k x _ hx hcombo h7 => ?byIndex, fun h k x y hx hy => ?byPair⟩
  case byIndex => simpa [hcombo] using h k x 7 hx h7
  case byPair =>
    rw [Bool.not_eq_true', Bool.and_eq_false_iff, beq_eq_false_iff_ne, ← Bool.not_eq_true, ← imp_iff_not_or]
    rintro hcombo rfl
    exact h k x (lt_length_of_readEntry hx) hx hcombo hy

theorem jumpAligned_iff (p : Program) : jumpAligned p = true ↔
    ∀ k n, readEntry p (2 * k) = some 3 → readEntry p (2 * k + 1) = some n → n.toNat % 2 = 0 := by
  unfold jumpAligned
  rw [laidOut_all_iff]
  refine ⟨fun h k n hx hy => ?byIndex, fun h k x y hx hy => ?byPair⟩
  case byIndex => simpa using h k 3 n hx hy
  case byPair =>
    rw [Bool.not_eq_true', Bool.and_eq_false_iff, beq_eq_false_iff_ne, beq_eq_false_iff_ne, ← imp_iff_not_or]
    rintro rfl
    simp [h k y hx hy]

/-- Settles O27: the checks over the laid-out pairs, said by index through `laidOut_all_iff`. -/
theorem wellFormedMeansItsConditions : Obligations.WellFormedMeansItsConditions :=
  ⟨wellFormed_iff, jumpAligned_iff, takesCombo_iff⟩

/-! ### Runs of a validated program (spec/60_exceptions.md R100) -/

theorem hostValidates_iff (p : Program) : hostValidates p = true ↔
    acceptableLength p.length = true ∧ wellFormed p = true ∧ jumpAligned p = true := by
  rw [hostValidates, Bool.and_eq_true, Bool.and_eq_true, and_assoc]

theorem decodePair_wf_of_wellFormed {p : Program} {x y : Entry} (h : wellFormed p = true) (hmem : (x, y) ∈ laidOut p) :
    (decodePair x y).wf = true := by
  obtain ⟨-, -, hlegal⟩ := (wellFormed_iff p).1 h
  obtain ⟨k, hx, hy⟩ := (mem_laidOut_iff p x y).1 hmem
  rw [← Bool.not_eq_false, decodePair_not_wf_iff]
  rintro ⟨hcombo, rfl⟩
  exact hlegal k x (lt_length_of_readEntry hx) hx hcombo hy

/-- A pair that decodes to a jump is the opcode 3 and the target. -/
theorem eq_of_decodePair_eq_jump {x y n : Entry} (h : decodePair x y = .jumpIfNonzero n) : x = 3 ∧ y = n := by
  have hx := opcodeEntry_decodePair x y
  have hy := operandEntry_decodePair x y
  rw [h] at hx hy
  exact ⟨hx.symm, hy.symm⟩

theorem jump_target_even {p : Program} {x y n : Entry} (h : jumpAligned p = true) (hmem : (x, y) ∈ laidOut p)
    (hjump : decodePair x y = .jumpIfNonzero n) : n.toNat % 2 = 0 := by
  obtain ⟨rfl, rfl⟩ := eq_of_decodePair_eq_jump hjump
  obtain ⟨k, hx, hy⟩ := (mem_laidOut_iff p 3 y).1 hmem
  exact (jumpAligned_iff p).1 h k y hx hy

theorem ne_jump_of_straightLine {p : Program} {x y : Entry} (h : straightLine p = true) (hmem : (x, y) ∈ laidOut p)
    (n : Entry) : decodePair x y ≠ .jumpIfNonzero n := by
  intro hjump
  obtain ⟨rfl, rfl⟩ := eq_of_decodePair_eq_jump hjump
  exact absurd (List.all_eq_true.1 h (3, y) hmem) (by simp)

theorem AlignedRun.pc_of_running {s : State} (h : AlignedRun s) (hr : s.status = .running) :
    s.pc % 2 = 0 ∧ s.pc < s.program.length := by
  obtain ⟨-, -, hhalted | ⟨-, hpc⟩⟩ := h
  · exact absurd hr (by simp [hhalted])
  · exact hpc

theorem AlignedRun.cause_eq {s : State} (h : AlignedRun s) : s.cause = .none := h.2.1

theorem AlignedRun.not_faulted {s : State} (h : AlignedRun s) : s.status ≠ .faulted := by
  obtain ⟨-, -, hst | ⟨hst, -⟩⟩ := h <;> simp [hst]

/-- At an even `pc` a run of a validated program executes a laid-out pair, which is legal. -/
theorem AlignedRun.executes_laidOut {s : State} (h : AlignedRun s) (hr : s.status = .running) :
    ∃ x y, (x, y) ∈ laidOut s.program ∧ Executes s (decodePair x y) ∧ (decodePair x y).wf = true := by
  obtain ⟨hpc, hlt⟩ := h.pc_of_running hr
  obtain ⟨hvalid, -, -⟩ := h
  obtain ⟨hlen, hwell, -⟩ := (hostValidates_iff _).1 hvalid
  obtain ⟨-, heven, -⟩ := (acceptableLength_iff _).1 hlen
  have hin : s.pc + 1 < s.program.length := by omega
  have hindex : 2 * (s.pc / 2) = s.pc := by omega
  have hmem : (s.program[s.pc], s.program[s.pc + 1]) ∈ laidOut s.program :=
    (mem_laidOut_iff ..).2 ⟨s.pc / 2, by rw [hindex, readEntry_of_lt hlt], by rw [hindex, readEntry_of_lt hin]⟩
  exact ⟨_, _, hmem, executes_pair hr hin, decodePair_wf_of_wellFormed hwell hmem⟩

/-- The one place where alignment could be lost is a taken jump, whose target is even. -/
theorem AlignedRun.next_pc_even {s t : State} (h : AlignedRun s) (hr : s.status = .running) (hstep : step s = .next t) :
    t.pc % 2 = 0 := by
  obtain ⟨x, y, hmem, he, hwf⟩ := h.executes_laidOut hr
  obtain ⟨hpc, -⟩ := h.pc_of_running hr
  obtain ⟨hvalid, -, -⟩ := h
  obtain ⟨-, -, haligned⟩ := (hostValidates_iff _).1 hvalid
  rcases step_pc_of_executes_wf he hwf hstep with hadv | ⟨n, hjump, -, hn⟩
  · omega
  · rw [hn]
    exact jump_target_even haligned hmem hjump

theorem AlignedRun.after_step {s t : State} (h : AlignedRun s) (hstep : step s = .next t) : AlignedRun t := by
  by_cases hr : s.status = .running
  · obtain ⟨x, y, -, he, hwf⟩ := h.executes_laidOut hr
    obtain ⟨hno, hcause⟩ := step_executes_wf_no_fault he hwf hstep
    have heven := h.next_pc_even hr hstep
    obtain ⟨hvalid, hnone, -⟩ := h
    refine ⟨by rw [step_program hstep]; exact hvalid, hcause.trans hnone, ?_⟩
    rcases step_running_status_cases hr hstep with ⟨hf, -⟩ | ⟨hh, -⟩ | ⟨hrun, hlt⟩
    · exact absurd hf hno
    · exact .inl hh
    · exact .inr ⟨hrun, heven, hlt⟩
  · rw [step_of_not_running hr] at hstep
    cases hstep
    exact h

theorem AlignedRun.exists_step {s : State} (h : AlignedRun s) : ∃ t, step s = .next t ∧ AlignedRun t := by
  obtain ⟨t, ht⟩ := exists_step_of_pc_lt fun hr => (h.pc_of_running hr).2
  exact ⟨t, ht, h.after_step ht⟩

/-- Settles O28: a legal pair at an even index leads to an even index or to the halt. -/
theorem alignedRunsStayAligned : Obligations.AlignedRunsStayAligned := fun _ h => h.exists_step

theorem alignedRun_launchState (a b c : Word) {p : Program} (h : hostValidates p = true) :
    AlignedRun (launchState a b c p) := by
  obtain ⟨hlen, -, -⟩ := (hostValidates_iff p).1 h
  obtain ⟨hst, hcause⟩ := launchState_accepted a b c hlen
  exact ⟨h, hcause, .inr ⟨hst, rfl, launchState_pc_lt_of_running hst⟩⟩

/-- Settles O29: the launch of a validated program is aligned, and O28 carries that along the run. -/
theorem wellFormedProgramsNeverFault : Obligations.WellFormedProgramsNeverFault := by
  intro a b c p s t hvalid hl n
  obtain ⟨-, rfl⟩ := launch_cases hl
  obtain ⟨u, hrun, hu⟩ := exists_run_of_step alignedRunsStayAligned n (alignedRun_launchState a b c hvalid)
  exact ⟨u, hrun, hu.not_faulted, hu.cause_eq⟩

/-! ### Straight lines -/

theorem AlignedRun.next_pc_of_straightLine {s t : State} (h : AlignedRun s) (hr : s.status = .running)
    (hline : straightLine s.program = true) (hstep : step s = .next t) : t.pc = s.pc + 2 := by
  obtain ⟨x, y, hmem, he, hwf⟩ := h.executes_laidOut hr
  exact step_pc_of_not_jump he hwf (ne_jump_of_straightLine hline hmem) hstep

/-- Where the invariant holds too, an aligned run is in progress exactly below LEN, and otherwise it has halted. -/
theorem AlignedRun.status_eq {s : State} (h : AlignedRun s) (hinv : MachineInvariant s) :
    s.status = if s.pc < s.program.length then .running else .halted := by
  obtain ⟨-, -, hhalted, -⟩ := hinv
  obtain ⟨-, -, hst | ⟨hst, -, hlt⟩⟩ := h
  · obtain ⟨hpast, -⟩ := hhalted hst
    rw [hst, if_neg (Nat.not_lt.2 hpast)]
  · rw [hst, if_pos hlt]

/-- The status of a run of a validated program, from where `pc` stands in it. -/
theorem AlignedRun.status_of_run {a b c : Word} {p : Program} {u : State} {k : Nat} (h : AlignedRun u)
    (hrun : run k (launchState a b c p) = .next u) : u.status = if u.pc < p.length then .running else .halted := by
  have hprog : u.program = p := run_program hrun
  rw [h.status_eq (run_launchState_invariant hrun), hprog]

theorem exists_run_of_straightLine (a b c : Word) {p : Program} (hvalid : hostValidates p = true)
    (hline : straightLine p = true) (k : Nat) (hk : k ≤ p.length / 2) :
    ∃ u, run k (launchState a b c p) = .next u ∧ AlignedRun u ∧ u.pc = 2 * k := by
  induction k with
  | zero => exact ⟨_, rfl, alignedRun_launchState a b c hvalid, rfl⟩
  | succ k ih =>
    obtain ⟨u, hrun, hu, hpc⟩ := ih (Nat.le_of_succ_le hk)
    have hprog : u.program = p := run_program hrun
    have hr : u.status = .running := by
      rw [hu.status_of_run hrun, if_pos (by omega)]
    obtain ⟨t, ht, hat⟩ := hu.exists_step
    have hnext := hu.next_pc_of_straightLine hr (hprog ▸ hline) ht
    exact ⟨t, by rw [run_add hrun, run_succ_of_next ht, run_zero], hat, by omega⟩

/-- Settles O45: `pc` is 2k after k steps, below LEN up to the last one. -/
theorem straightLineProgramsHalt : Obligations.StraightLineProgramsHalt := by
  intro a b c p s t hvalid hline hl
  obtain ⟨-, rfl⟩ := launch_cases hl
  have hrun := exists_run_of_straightLine a b c hvalid hline
  refine ⟨fun k hk => ?running, ?halted⟩
  case running =>
    obtain ⟨u, hu, hal, hpc⟩ := hrun k hk.le
    exact ⟨u, hu, by rw [hal.status_of_run hu, if_pos (by omega)], hpc⟩
  case halted =>
    obtain ⟨hlen, -, -⟩ := (hostValidates_iff p).1 hvalid
    obtain ⟨-, heven, -⟩ := (acceptableLength_iff _).1 hlen
    obtain ⟨u, hu, hal, hpc⟩ := hrun (p.length / 2) le_rfl
    have hst : u.status = .halted := by rw [hal.status_of_run hu, if_neg (by omega)]
    exact ⟨u, hu, hst, hal.cause_eq, by omega⟩

/-! ### Runs with A = 0 (spec/42_jump.md section 1) -/

theorem step_a_zero {s t : State} (ha : s.a = 0) (h : step s = .next t) : t.a = 0 := by
  have hle := step_a_le h
  rw [ha] at hle
  exact BitVec.le_zero_iff.1 hle

/-- With A = 0 no jump is taken: a step that does not fault advances over a whole pair. -/
theorem step_pc_of_a_zero {s t : State} (hr : s.status = .running) (ha : s.a = 0) (h : step s = .next t)
    (hno : t.status ≠ .faulted) : s.pc + 1 < s.program.length ∧ t.pc = s.pc + 2 := by
  rcases step_running_fault_cases hr h with ⟨-, rfl⟩ | ⟨i, -, -, rfl⟩ | ⟨i, he, hwf, -, -⟩
  · exact absurd rfl hno
  · exact absurd rfl hno
  · obtain ⟨hin, -, -⟩ := fetch_ok he.2
    rcases step_pc_of_executes_wf he hwf h with hadv | ⟨n, -, hne, -⟩
    · exact ⟨hin, hadv⟩
    · exact absurd ha hne

/-- The descent: each step that goes on leaves two entries fewer before the end. From an odd `pc` the run cannot halt, because an
advance reaches the even LEN from an even `pc` only. -/
theorem exists_stop_of_a_zero {s : State} (h : MachineInvariant s) (hr : s.status = .running) (ha : s.a = 0) :
    ∃ k t, k ≤ s.program.length - s.pc ∧ run k s = .next t ∧ (t.status = .halted ∨ t.status = .faulted) ∧
      (s.pc % 2 = 1 → t.status = .faulted) := by
  obtain ⟨-, hin, hlen⟩ := h.of_running hr
  obtain ⟨-, heven, -⟩ := (acceptableLength_iff _).1 hlen
  obtain ⟨t, ht⟩ := exists_step_of_invariant h
  have hprog : t.program.length = s.program.length := congrArg List.length (step_program ht)
  have hone : run 1 s = .next t := run_succ_of_next ht
  rcases step_running_status_cases hr ht with ⟨hf, -⟩ | ⟨hh, hpast⟩ | ⟨hrun, hlt⟩
  · exact ⟨1, t, by omega, hone, .inr hf, fun _ => hf⟩
  · obtain ⟨hpair, hpc⟩ := step_pc_of_a_zero hr ha ht (by simp [hh])
    exact ⟨1, t, by omega, hone, .inl hh, fun hodd => by omega⟩
  · obtain ⟨hpair, hpc⟩ := step_pc_of_a_zero hr ha ht (by simp [hrun])
    obtain ⟨k, u, hk, hu, hstop, hodd⟩ :=
      exists_stop_of_a_zero (stepKeepsTheInvariant s t h ht) hrun (step_a_zero ha ht)
    exact ⟨k + 1, u, by omega, (run_succ_of_next ht).trans hu, hstop, fun hs => hodd (by omega)⟩
termination_by s.program.length - s.pc

theorem AlignedRun.machineInvariant {s : State} (h : AlignedRun s) (hr : s.status = .running) : MachineInvariant s := by
  obtain ⟨-, hlt⟩ := h.pc_of_running hr
  obtain ⟨hvalid, hcause, -⟩ := h
  obtain ⟨hlen, -, -⟩ := (hostValidates_iff _).1 hvalid
  exact machineInvariant_of_no_fault hcause hlen (le_max_of_le_left hlt.le) (.inl ⟨hr, hlt⟩)

theorem AlignedRun.haltsWithin {s : State} (h : AlignedRun s) (ha : s.a = 0) :
    HaltsWithin (s.program.length - s.pc) s := by
  obtain hst | ⟨hr, -⟩ := h.2.2
  · exact ⟨0, s, Nat.zero_le _, rfl, hst⟩
  · obtain ⟨k, t, hk, hrun, hstop, -⟩ := exists_stop_of_a_zero (h.machineInvariant hr) hr ha
    have hat : AlignedRun t := run_keeps (fun hu hs => hs.after_step hu) hrun h
    exact ⟨k, t, hk, hrun, hstop.resolve_right hat.not_faulted⟩

/-- Settles O46: the descent `exists_stop_of_a_zero`; an aligned run cannot end it in FAULTED. -/
theorem runsEndOnceAIsZero : Obligations.RunsEndOnceAIsZero :=
  ⟨fun _ h hr ha => exists_stop_of_a_zero h hr ha, fun _ h ha => h.haltsWithin ha⟩

end Sys2Proof.Machine
end

section
/-! PROOFS. What the host gets from a run: OUT as the list of its emissions (spec/43_emit.md R86), and the answer of Simulate under
a step budget (spec/70_reset_and_hazards.md R113). -/

namespace Sys2Proof.Machine

/-! ### OUT of a run -/

theorem emissions_succ_of_next {s t : State} (n : Nat) (h : step s = .next t) :
    emissions (n + 1) s = (emitted s).toList ++ emissions n t := by
  simp [emissions, h]

theorem run_out {n : Nat} {s t : State} (h : run n s = .next t) : t.out = s.out ++ emissions n s := by
  induction n generalizing s with
  | zero => cases h; simp [emissions]
  | succ n ih =>
    obtain ⟨u, hu, hrun⟩ := run_succ_next h
    rw [ih hrun, step_out hu, emissions_succ_of_next n hu, List.append_assoc]

/-- A step emits one value at most. -/
theorem emissions_length_le (n : Nat) (s : State) : (emissions n s).length ≤ n := by
  induction n generalizing s with
  | zero => exact Nat.le_refl 0
  | succ n ih =>
    cases hs : step s with
    | next t =>
      have hone : (emitted s).toList.length ≤ 1 := Option.length_toList_le
      rw [emissions_succ_of_next n hs, List.length_append]
      have htail := ih t
      omega
    | fault f => simp [emissions, hs]
    | refused r => simp [emissions, hs]

/-- Settles O33: OUT is empty at launch, and each step appends what it emits. -/
theorem outputListsTheEmissions : Obligations.OutputListsTheEmissions := by
  intro a b c p s t u n hl hrun
  obtain ⟨-, rfl⟩ := launch_cases hl
  have hout : u.out = emissions n (launchState a b c p) := run_out hrun
  exact ⟨hout, hout ▸ emissions_length_le n _⟩

/-! ### Simulate: the answer from the state at the end of the budget -/

/-- What Simulate answers from the state after the last step of the budget. -/
def answerAt (u : State) : Option SimResult :=
  match u.status with
  | .halted => some (.output u.out)
  | .faulted => some (.failure u.cause)
  | .running => some .overBudget
  | .idle => none

theorem answerAt_of_halted {u : State} (h : u.status = .halted) : answerAt u = some (.output u.out) := by
  simp [answerAt, h]

theorem answerAt_of_faulted {u : State} (h : u.status = .faulted) : answerAt u = some (.failure u.cause) := by
  simp [answerAt, h]

theorem answerAt_of_running {u : State} (h : u.status = .running) : answerAt u = some .overBudget := by
  simp [answerAt, h]

theorem answerAt_isSome_of_not_idle {u : State} (h : u.status ≠ .idle) : (answerAt u).isSome = true := by
  cases hst : u.status with
  | idle => exact absurd hst h
  | _ => simp [answerAt, hst]

theorem simulate_eq_answerAt {a b c : Word} {p : Program} {s t u : State} {n : Nat} (hl : launch a b c p s = some t)
    (hrun : run n t = .next u) : simulate n a b c p s = answerAt u := by
  simp only [simulate, hl, hrun]
  rfl

/-! ### The end of a run within the budget -/

/-- Once a run has stopped, a larger number of steps answers the same state. -/
theorem run_of_stopped_within {k n : Nat} {s t : State} (h : run k s = .next t) (ht : t.status ≠ .running) (hkn : k ≤ n) :
    run n s = .next t := by
  obtain ⟨j, rfl⟩ := Nat.exists_eq_add_of_le hkn
  rw [run_add h, run_of_not_running ht]

theorem step_not_idle {s t : State} (h : step s = .next t) (hs : s.status ≠ .idle) : t.status ≠ .idle := by
  by_cases hr : s.status = .running
  · rcases step_running_status_cases hr h with ⟨hst, -⟩ | ⟨hst, -⟩ | ⟨hst, -⟩ <;> simp [hst]
  · rw [step_of_not_running hr] at h
    cases h
    exact hs

theorem launchState_not_idle (a b c : Word) (p : Program) : (launchState a b c p).status ≠ .idle := by
  rcases launchState_status_cause a b c p with ⟨hst, -⟩ | ⟨hst, -⟩ <;> simp [hst]

/-- Every launch has a run of every length, which stays out of IDLE. -/
theorem exists_run_launchState (a b c : Word) (p : Program) (n : Nat) :
    ∃ u, run n (launchState a b c p) = .next u ∧ u.status ≠ .idle := by
  obtain ⟨u, hrun, -⟩ := exists_run_of_invariant n (machineInvariant_launchState a b c p)
  exact ⟨u, hrun, run_keeps (P := fun v => v.status ≠ .idle) step_not_idle hrun (launchState_not_idle a b c p)⟩

/-- Settles O39: the answer is read from the state at the end of the budget, which is that of the stop if the run has stopped and
which every launch has. -/
theorem simulateAnswersTheRunsEnd : Obligations.SimulateAnswersTheRunsEnd := by
  refine ⟨fun a b c p s t u k n hl hrun hkn => ⟨fun hst => ?halts, fun hst => ?faults⟩,
    fun a b c p s t hl hend n => ?endless, fun a b c p s s' n hn hn' => ?answers⟩
  case halts =>
    have hrunN := run_of_stopped_within hrun (by simp [hst]) hkn
    exact ⟨(simulate_eq_answerAt hl hrunN).trans (answerAt_of_halted hst), readback_of_stopped (.inl hst)⟩
  case faults =>
    have hrunN := run_of_stopped_within hrun (by simp [hst]) hkn
    exact (simulate_eq_answerAt hl hrunN).trans (answerAt_of_faulted hst)
  case endless =>
    obtain ⟨-, rfl⟩ := launch_cases hl
    obtain ⟨u, hrun, -⟩ := exists_run_launchState a b c p n
    exact (simulate_eq_answerAt hl hrun).trans (answerAt_of_running (hend n u hrun))
  case answers =>
    obtain ⟨u, hrun, hidle⟩ := exists_run_launchState a b c p n
    rw [simulate_eq_answerAt (launch_of_not_running a b c p hn) hrun,
      simulate_eq_answerAt (launch_of_not_running a b c p hn') hrun]
    exact ⟨rfl, answerAt_isSome_of_not_idle hidle⟩

end Sys2Proof.Machine
end
